-- ==== Sys2Proof/Word.lean ====
section
/-! DEFINITION. The engine's words: bytes, 64-bit words, the four state words together, and eight bytes in a row
(00_scope.md R11, R13; 10_state.md R20, R32). -/

namespace Sys2Proof

/-- A byte: 8 bits, unsigned (R11). -/
abbrev Byte := BitVec 8

/-- A word: 64 bits, unsigned (R11). -/
abbrev Word := BitVec 64

/-- The values of the four state words v0 to v3 (R20). -/
structure Lanes where
  v0 : Word
  v1 : Word
  v2 : Word
  v3 : Word
  deriving DecidableEq, Repr

/-- Eight bytes in a row, element 0 at the lowest address: a tag, or the register TAGREG (R13, R32). -/
structure Bytes8 where
  b0 : Byte
  b1 : Byte
  b2 : Byte
  b3 : Byte
  b4 : Byte
  b5 : Byte
  b6 : Byte
  b7 : Byte
  deriving DecidableEq, Repr

end Sys2Proof
end

