-- ==== Sys2Proof/Config.lean ====
section
/-! DEFINITION. The parameters of the engine: the fixed ones of 00_scope.md R5 and R6 with their values, the open
parameter ERR_PRIORITY of R7 with no value, and the free bytes of 70_reset_and_hazards.md R233. -/

namespace Sys2Proof.Config

/-- Bytes of a key (R5). -/
def keyBytes : Nat := 16
/-- Bytes of a tag (R5). -/
def tagBytes : Nat := 8
/-- Bytes of a word (R5). -/
def wordBytes : Nat := 8
/-- Rounds per absorbed word (R5, the "C rounds"). -/
def cRounds : Nat := 2
/-- Rounds after the last word (R5, the "D rounds"). -/
def dRounds : Nat := 4

/-- Rotation amounts of half-round A: v1, v3, and v0 at its end (R5). -/
def rotA1 : Nat := 13
def rotA3 : Nat := 16
def rotA0 : Nat := 32
/-- Rotation amounts of half-round B: v1, v3, and v2 at its end (R5). -/
def rotB1 : Nat := 17
def rotB3 : Nat := 21
def rotB2 : Nat := 32

/-- The finalization constant, XORed into v2 (R5). -/
def finConst : Word := 0x00000000000000ff

/-- The four initialisation constants: the ASCII strings of the spec read with the first character in the most
significant byte (R6, 90_conflicts.md C1). -/
def initC0 : Word := 0x736f6d6570736575
def initC1 : Word := 0x646f72616e646f6d
def initC2 : Word := 0x6c7967656e657261
def initC3 : Word := 0x7465646279746573

/-- Which error a COMPUTE_TAG reports when both lengths are wrong (R7, R108). -/
inductive ErrPriority where
  | tagFirst
  | keyFirst
  deriving DecidableEq, Repr, Inhabited

/-- ERR_PRIORITY is OPEN (R7, 92_eei_decisions.md D11): a constant with no value, so that a claim holds for both.
Log entry 4; safe. -/
opaque errPriority : ErrPriority

/-- The free bytes of R233, one for each draw: nothing constrains them. Log entry 9; safe. -/
opaque freeByte : Nat → Byte

/-- What a byte of a buffer reads as when nothing has been listed for its address. DESIGN CHOICE (the spec leaves the
buffers' contents to the host and gives no value): zero. Log entry 5; unsafe. -/
def unlistedByte : Byte := 0x00

end Sys2Proof.Config
end

