-- ==== Sys2Proof/Syntax.lean ====
section
/-! DEFINITION. The instructions: one constructor for each row of spec/opcode_table.json (30_encoding.md R84).
Lengths are natural numbers in bytes (R83; the unbounded reference reading of R81, log entry 3). -/

namespace Sys2Proof

inductive Instr where
  /-- `COMPUTE_TAG key_len, tag_len, msg_len` (R102): format D, opcode 0x00. -/
  | computeTag (keyLen tagLen msgLen : Nat)
  /-- `VERIFY_TAG key_len, tag_len, msg_len` (R103): format D, opcode 0x01. -/
  | verifyTag (keyLen tagLen msgLen : Nat)
  /-- uop `IDLE`, code 0x0 (R106). -/
  | idle
  /-- uop `CHK`, code 0x1 (R107). -/
  | chk
  /-- uop `INIT`, code 0x2 (R121). -/
  | init
  /-- uop `CMPR`, code 0x3 (R152). -/
  | cmpr
  /-- uop `TAIL`, code 0x4 (R163). -/
  | tail
  /-- uop `FIN`, code 0x5 (R171). -/
  | fin
  /-- uop `OUT`, code 0x6 (R175). -/
  | out
  /-- uop `CMP`, code 0x7 (R186). -/
  | cmp
  /-- uop `ZER`, code 0x8 (R188). -/
  | zer
  deriving DecidableEq, Repr

end Sys2Proof
end

