-- ==== Sys2Proof/WellFormed.lean ====
section
/-! DEFINITION. When an instruction has an encoding in an instance whose length fields are `lenW` bits wide
(30_encoding.md R81, R83). No length is illegal as such (R86); a field of `lenW` bits holds 0 to 2^lenW - 1 (R7). -/

namespace Sys2Proof

/-- The length fits a field of `lenW` bits. -/
def lenFits (lenW n : Nat) : Bool := decide (n < 2 ^ lenW)

/-- The instruction is well formed for length fields of `lenW` bits: each length fits; uops have no operand (R82). -/
def Instr.wf (lenW : Nat) : Instr → Bool
  | .computeTag k t m => lenFits lenW k && lenFits lenW t && lenFits lenW m
  | .verifyTag k t m => lenFits lenW k && lenFits lenW t && lenFits lenW m
  | .idle => true
  | .chk => true
  | .init => true
  | .cmpr => true
  | .tail => true
  | .fin => true
  | .out => true
  | .cmp => true
  | .zer => true

end Sys2Proof
end

