-- ==== Sys2Proof/Decode.lean ====
section
/-! DEFINITION. The two decoders of 30_encoding.md R84 (format D, the descriptor; format U, the uop code), both total
and rejecting by name, and after them the encoder written from the same rules (R81, R82). -/

namespace Sys2Proof

/-- The descriptor as a record, the reference reading of R81. -/
structure Descriptor where
  opcode : BitVec 8
  keyLen : Nat
  tagLen : Nat
  msgLen : Nat
  deriving DecidableEq, Repr

/-- An encoded instruction: format D as one number (bit 0 least significant), or format U. -/
inductive Encoded where
  | command (w : Nat)
  | uop (c : BitVec 4)
  deriving DecidableEq, Repr

/-- Why a decoder rejects. -/
inductive DecodeError where
  /-- Opcodes 0x02 to 0xff spell no command (R85). -/
  | reservedOpcode (o : BitVec 8)
  /-- Uop codes 0x9 to 0xf are reserved (R86). -/
  | reservedUop (c : BitVec 4)
  /-- The number has a bit above the descriptor's 8 + 3*LEN_W bits (R80). -/
  | tooWide
  deriving DecidableEq, Repr

/-- Format U (R84): the uop a code spells. -/
def decodeUop (c : BitVec 4) : Except DecodeError Instr :=
  match c.toNat with
  | 0 => .ok .idle
  | 1 => .ok .chk
  | 2 => .ok .init
  | 3 => .ok .cmpr
  | 4 => .ok .tail
  | 5 => .ok .fin
  | 6 => .ok .out
  | 7 => .ok .cmp
  | 8 => .ok .zer
  | _ => .error (.reservedUop c)

/-- Format D (R84): the command a descriptor spells, selected by the opcode. -/
def decodeDescriptor (d : Descriptor) : Except DecodeError Instr :=
  match d.opcode.toNat with
  | 0 => .ok (.computeTag d.keyLen d.tagLen d.msgLen)
  | 1 => .ok (.verifyTag d.keyLen d.tagLen d.msgLen)
  | _ => .error (.reservedOpcode d.opcode)

/-- The bits of a descriptor of an instance with length fields of `lenW` bits (R80). -/
def descriptorBits (lenW : Nat) : Nat := 8 + 3 * lenW

/-- The fields of a packed descriptor, from the least significant bit (R81). -/
def Descriptor.unpack (lenW w : Nat) : Descriptor where
  opcode := BitVec.ofNat 8 (w % 2 ^ 8)
  keyLen := w / 2 ^ 8 % 2 ^ lenW
  tagLen := w / 2 ^ (8 + lenW) % 2 ^ lenW
  msgLen := w / 2 ^ (8 + 2 * lenW) % 2 ^ lenW

/-- The decoder: format D for length fields of `lenW` bits, format U for a uop code. -/
def decode (lenW : Nat) : Encoded → Except DecodeError Instr
  | .command w =>
    if w < 2 ^ descriptorBits lenW then decodeDescriptor (Descriptor.unpack lenW w) else .error .tooWide
  | .uop c => decodeUop c

/-- The instruction a decoder's answer holds, none where it rejects. -/
def decoded : Except DecodeError Instr → Option Instr
  | .ok i => some i
  | .error _ => none

/-- Which format a number of spec/opcode_table.json's numbering is read in. The table's two formats overlap (opcode 0x00
is also the uop code 0x0), and in the engine the place tells them apart (IR0 or phase). DESIGN CHOICE, log entry 11: fewer
than 8 bits are a uop code; exactly 8 bits are a descriptor whose lengths are zero where the byte is a command's opcode,
else a uop code when it has four bits; more bits are a descriptor with LEN_W = (nbits - 8) / 3. -/
def tableWord (nbits w : Nat) : Encoded :=
  if nbits < 8 then
    (if w < 16 then .uop (BitVec.ofNat 4 w) else .command w)
  else if nbits = 8 then
    (if 2 ≤ w ∧ w < 16 then .uop (BitVec.ofNat 4 w) else .command w)
  else .command w

/-- LEN_W of a table row given as `nbits` bits; a row given by its opcode alone has lengths of zero bits. -/
def tableLenW (nbits : Nat) : Nat := (nbits - 8) / 3

/-- The instruction the decoder reads from an instruction whose bits are `w`, numbered as the opcode table numbers
them. -/
def decodeTableWord (nbits w : Nat) : Option Instr := decoded (decode (tableLenW nbits) (tableWord nbits w))

/-- The fields of a descriptor put into their places (R81). -/
def Descriptor.pack (lenW : Nat) (d : Descriptor) : Nat :=
  d.opcode.toNat + d.keyLen * 2 ^ 8 + d.tagLen * 2 ^ (8 + lenW) + d.msgLen * 2 ^ (8 + 2 * lenW)

/-- The encoder (R81, R82, R84). -/
def encode (lenW : Nat) : Instr → Encoded
  | .computeTag k t m => .command (Descriptor.pack lenW ⟨0x00, k, t, m⟩)
  | .verifyTag k t m => .command (Descriptor.pack lenW ⟨0x01, k, t, m⟩)
  | .idle => .uop 0x0
  | .chk => .uop 0x1
  | .init => .uop 0x2
  | .cmpr => .uop 0x3
  | .tail => .uop 0x4
  | .fin => .uop 0x5
  | .out => .uop 0x6
  | .cmp => .uop 0x7
  | .zer => .uop 0x8

end Sys2Proof
end

