-- ==== Sys2Proof/Machine/State.lean ====
section
/-! DEFINITION. The state of the engine (10_state.md), the host's moves it still has before it, the reasons a step can
stop, and the state after reset (R40). -/

namespace Sys2Proof.Machine

/-- The latched `op` bit (R28): 0 is `COMPUTE_TAG`, 1 is `VERIFY_TAG`. -/
inductive Op where
  | computeTag
  | verifyTag
  deriving DecidableEq, Repr

/-- The three address spaces (R34). -/
inductive Space where
  | key
  | msg
  | tag
  deriving DecidableEq, Repr

/-- The two errors of a command (R200). -/
inductive Err where
  | invalidKeyLength
  | invalidTagBufferLength
  deriving DecidableEq, Repr

/-- The four latched descriptor registers, written together by `START` and by nothing else (R28). -/
structure Latched where
  op : Op
  keyLen : Nat
  tagLen : Nat
  msgLen : Nat
  deriving DecidableEq, Repr

/-- The stored fields of `STATUS` (R29); its 8-bit word is `statusWord`. -/
structure Status where
  busy : Bool
  done : Bool
  err : BitVec 2
  result : Bool
  deriving DecidableEq, Repr

/-- Bytes by address in one canonical form: addresses strictly rising, no byte equal to `Config.unlistedByte`. -/
abbrev Memory := List Host.Cell

/-- A buffer the host provides: `size` addressable bytes, at addresses 0 to `size - 1` (R34, R242). -/
structure Buffer where
  size : Nat
  cells : Memory
  deriving DecidableEq, Repr

/-- One move of the world outside the engine, made between two uops (R10, R231, R234). -/
inductive HostMove where
  /-- The host does nothing and the engine executes its next uop. -/
  | letRun
  /-- The host writes a descriptor to `IR0 DESC` (R31): the `START` event. -/
  | writeDesc (d : Descriptor)
  /-- The host provides a buffer with these bytes, lowest address first (R234). -/
  | provide (sp : Space) (bytes : List Byte)
  /-- The host writes one byte of a buffer. -/
  | writeByte (sp : Space) (a : Nat) (b : Byte)
  /-- The host reads one byte of `TAG` (R62, R241). -/
  | readTag (a : Nat)
  /-- The reset event (R231). -/
  | reset
  deriving DecidableEq, Repr

/-- The registers that can hold no value (R15, `UNSPEC`), for naming a fault. -/
inductive UnspecReg where
  | lanes
  | widx
  | descriptor
  deriving DecidableEq, Repr

/-- The state. A register that is `UNSPEC` holds no value (R15), which is `none`: R22 says a model must not give it one
(log entry 1). The state words become `UNSPEC` together, and so do the descriptor registers. -/
structure State where
  /-- `v[0..3]` (R20, R22). -/
  v : Option Lanes
  /-- `phase`, the code of the next uop (R25). -/
  phase : BitVec 4
  /-- `widx` (R27). -/
  widx : Option Nat
  /-- `op`, `key_len`, `tag_len`, `msg_len` (R28). -/
  latched : Option Latched
  /-- `STATUS` (R29). -/
  status : Status
  /-- `ERRINFO` (R30). -/
  errinfo : BitVec 16
  /-- `TAGREG` (R32). -/
  tagreg : Bytes8
  /-- The `KEY` buffer (R35). -/
  key : Buffer
  /-- The `MSG` buffer (R36). -/
  msg : Buffer
  /-- The `TAG` buffer (R37). -/
  tag : Buffer
  /-- The model's own field: the moves the host has still to make, first one first; after the last one the host lets the
  engine run (log entry 7). -/
  pending : List HostMove
  /-- The model's own field: how many free bytes have been drawn (log entry 9). -/
  freeCount : Nat
  deriving DecidableEq, Repr

/-- The faults of the model. -/
inductive Fault where
  /-- Raised by an operand read when the register is `UNSPEC` (R15: "reading it is a model fault"; 92_eei_decisions.md D16,
  93_implementation_defined.md U3). Safe: the model stops
  where the spec gives no value; no run from reset under the host's duties reaches it (R113). Log entry 2. -/
  | readUnspec (r : UnspecReg)
  deriving DecidableEq, Repr

/-- The refusals of the model; every one stands where the spec gives no meaning, and is safe. -/
inductive Refusal where
  /-- Raised by an arm of `exec` whose instruction has no meaning yet (none is left). -/
  | notModelled (mnemonic : String)
  /-- Raised by the fetch: the host wrote a descriptor with an opcode 0x02 to 0xff (R85). Safe. -/
  | reservedOpcode (o : BitVec 8)
  /-- Raised by the fetch: `phase` holds 0x9 to 0xf (R86). Safe. -/
  | reservedUop (c : BitVec 4)
  /-- Raised by the fetch: a packed descriptor wider than its register (R80). Safe; no record has one. -/
  | tooWide
  /-- Raised by `START`: the host wrote `IR0` while `busy = 1` (R114, R239). Safe. -/
  | startWhileBusy
  /-- Raised by `START`: a descriptor length is larger than the buffer the host provides (R242). Safe. -/
  | lengthBeyondBuffer
  /-- Raised by `MemRead`: `a + n > len(S)` (R54). Safe. -/
  | readOutsideBuffer
  /-- Raised by `MemWrite`: not the one write R55 defines. Safe. -/
  | writeNotDefined
  /-- Raised by a host access to a buffer while `busy = 1` (R62, R240). Safe for what it refuses; log entry 8. -/
  | hostAccessWhileBusy
  /-- Raised by a host access to an address its buffer does not have (R34). Safe. -/
  | hostAccessOutsideBuffer
  deriving DecidableEq, Repr

/-- Why an operand cannot be read or a write not be made. -/
inductive Stop where
  | fault (f : Fault)
  | refused (r : Refusal)
  deriving DecidableEq, Repr

/-- A buffer before the host provides one (log entries 5, 6). -/
def Buffer.empty : Buffer := ⟨0, []⟩

/-- The state after reset at power-up (R40, R231). The buffers are the host's: none is provided yet (log entries 5, 6). -/
def State.reset : State where
  v := none
  phase := 0x0
  widx := none
  latched := none
  status := ⟨false, false, 0, false⟩
  errinfo := 0x0000
  tagreg := ⟨0, 0, 0, 0, 0, 0, 0, 0⟩
  key := Buffer.empty
  msg := Buffer.empty
  tag := Buffer.empty
  pending := []
  freeCount := 0

end Sys2Proof.Machine
end

