-- ==== Sys2Proof/Machine/Flags.lean ====
section
/-! DEFINITION. The words of STATUS and ERRINFO and every change of a STATUS field (10_state.md R29, R30). The engine has
no arithmetic flags (42_round.md R130). -/

namespace Sys2Proof.Machine

/-- One bit as a byte. -/
def bitByte (b : Bool) : BitVec 8 := if b then 1 else 0

/-- `IR1 STATUS` as the host reads it: busy at bit 0, done at bit 1, err at bits 3:2, result at bit 4, bits 7:5 zero
(R29). -/
def statusWord (st : Status) : BitVec 8 :=
  bitByte st.busy ||| (bitByte st.done <<< 1) ||| (st.err.setWidth 8 <<< 2) ||| (bitByte st.result <<< 4)

/-- The code of an error (R201, R202). -/
def Err.code : Err → BitVec 2
  | .invalidKeyLength => 1
  | .invalidTagBufferLength => 2

/-- `ERRINFO.param` of an error: 1 is the key, 2 the tag buffer (R30). -/
def Err.param : Err → BitVec 2
  | .invalidKeyLength => 1
  | .invalidTagBufferLength => 2

/-- `ERRINFO.req_len` of an error, in bytes (R30). -/
def Err.reqLen : Err → BitVec 8
  | .invalidKeyLength => BitVec.ofNat 8 Config.keyBytes
  | .invalidTagBufferLength => BitVec.ofNat 8 Config.tagBytes

/-- `ERRINFO` with `param` at bits 9:8 and `req_len` at bits 7:0, bits 15:10 zero (R30). -/
def errinfoWord (param : BitVec 2) (reqLen : BitVec 8) : BitVec 16 :=
  (param.setWidth 16 <<< 8) ||| reqLen.setWidth 16

/-- `ERRINFO` after the error `e` (R30, R204). -/
def Err.info (e : Err) : BitVec 16 := errinfoWord e.param e.reqLen

/-- STATUS from `START`: busy set; done, err, result cleared (R101). -/
def Status.started : Status := ⟨true, false, 0, false⟩

/-- STATUS at the end of a command without error: busy cleared, done set, the rest kept (R109). -/
def Status.ended (st : Status) : Status := { st with busy := false, done := true }

/-- STATUS after the error `e` (R204). -/
def Status.raised (e : Err) : Status := ⟨false, true, e.code, false⟩

/-- STATUS with the verdict of a comparison (R186). -/
def Status.withResult (st : Status) (verdict : Bool) : Status := { st with result := verdict }

end Sys2Proof.Machine
end

