-- ==== Sys2Proof/Machine/Operands.lean ====
section
/-! DEFINITION. Operand forms: little-endian assembly and splitting of words (00_scope.md R13, 20_memory.md R50), reads of
registers that may be UNSPEC (R15), and the quantities derived from the lengths (30_encoding.md R83). -/

namespace Sys2Proof

/-- The eight bytes, lowest address first. -/
def Bytes8.toList (e : Bytes8) : List Byte := [e.b0, e.b1, e.b2, e.b3, e.b4, e.b5, e.b6, e.b7]

/-- Eight zero bytes. -/
def Bytes8.zero : Bytes8 := ⟨0, 0, 0, 0, 0, 0, 0, 0⟩

/-- The number a byte sequence spells, first byte least significant (R13). -/
def leNat : List Byte → Nat
  | [] => 0
  | b :: bs => b.toNat + 256 * leNat bs

/-- `le64` (R13). -/
def le64 (bs : List Byte) : Word := BitVec.ofNat 64 (leNat bs)

/-- Byte `j` of a word, its bits `8j+7:8j` (R13). -/
def byteOf (w : Word) (j : Nat) : Byte := (w >>> (8 * j)).setWidth 8

/-- `enc_le64` (R13). -/
def encLe64 (w : Word) : Bytes8 :=
  ⟨byteOf w 0, byteOf w 1, byteOf w 2, byteOf w 3, byteOf w 4, byteOf w 5, byteOf w 6, byteOf w 7⟩

namespace Machine

/-- Reading `v[0..3]` (R14, R15). -/
def readLanes (s : State) : Except Stop Lanes :=
  match s.v with
  | some v => .ok v
  | none => .error (.fault (.readUnspec .lanes))

/-- Reading `widx` (R14, R15). -/
def readWidx (s : State) : Except Stop Nat :=
  match s.widx with
  | some w => .ok w
  | none => .error (.fault (.readUnspec .widx))

/-- Reading the latched descriptor registers (R28, R15). -/
def readLatched (s : State) : Except Stop Latched :=
  match s.latched with
  | some l => .ok l
  | none => .error (.fault (.readUnspec .descriptor))

/-- `nwords = msg_len div 8` (R83). -/
def Latched.nwords (l : Latched) : Nat := l.msgLen / 8

/-- `left = msg_len mod 8` (R83). -/
def Latched.left (l : Latched) : Nat := l.msgLen % 8

/-- `len(S)` while a command runs: the length the descriptor says (R34). -/
def Latched.len (l : Latched) : Space → Nat
  | .key => l.keyLen
  | .msg => l.msgLen
  | .tag => l.tagLen

end Machine

end Sys2Proof
end

