-- ==== Sys2Proof/Machine/Ops.lean ====
section
/-! DEFINITION. The named operations: bytes in canonical form, the primitives MemRead and MemWrite (20_memory.md R54, R55),
one update for each register, going on after a read, taking an error (60_exceptions.md R204) and the end of a command
(40_commands.md R109). The spec has no return from an error (60_exceptions.md R208), so none is modelled. -/

namespace Sys2Proof.Machine

/-! ## Bytes by address -/

/-- The byte at an address. -/
def Memory.read : Memory → Nat → Byte
  | [], _ => Config.unlistedByte
  | (x, y) :: m, a => if a = x then y else Memory.read m a

/-- Write one byte, keeping the canonical form: an unlisted byte's value leaves no entry. -/
def Memory.write : Memory → Nat → Byte → Memory
  | [], a, b => if b = Config.unlistedByte then [] else [(a, b)]
  | (x, y) :: m, a, b =>
    if a < x then (if b = Config.unlistedByte then (x, y) :: m else (a, b) :: (x, y) :: m)
    else if a = x then (if b = Config.unlistedByte then m else (a, b) :: m)
    else (x, y) :: Memory.write m a b

/-- Write a byte sequence from an address up, lowest address first. -/
def Memory.writeBytes : Memory → Nat → List Byte → Memory
  | m, _, [] => m
  | m, a, b :: bs => Memory.writeBytes (Memory.write m a b) (a + 1) bs

/-- The `n` bytes from an address up, lowest address first. -/
def Memory.readBytes (m : Memory) (a : Nat) : Nat → List Byte
  | 0 => []
  | n + 1 => m.read a :: Memory.readBytes m (a + 1) n

/-- The cells that hold exactly a byte sequence from an address up. -/
def Memory.ofBytes : Nat → List Byte → Memory
  | _, [] => []
  | a, b :: bs => if b = Config.unlistedByte then Memory.ofBytes (a + 1) bs else (a, b) :: Memory.ofBytes (a + 1) bs

/-- Canonical form with every address at least `lo` and below `hi`: addresses rising, no unlisted byte's value. -/
def Memory.wfFrom (hi : Nat) : Nat → Memory → Bool
  | _, [] => true
  | lo, (a, b) :: m => decide (lo ≤ a) && decide (a < hi) && (b != Config.unlistedByte) && Memory.wfFrom hi (a + 1) m

/-- The canonical form of a memory with addresses 0 to `hi - 1`. -/
def Memory.wf (hi : Nat) (m : Memory) : Bool := Memory.wfFrom hi 0 m

/-- A buffer's cells are in canonical form and inside the buffer. -/
def Buffer.wf (b : Buffer) : Bool := Memory.wf b.size b.cells

/-- The byte of a buffer at an address. -/
def Buffer.read (b : Buffer) (a : Nat) : Byte := b.cells.read a

/-- The buffer that holds exactly these bytes. -/
def Buffer.ofBytes (bs : List Byte) : Buffer := ⟨bs.length, Memory.ofBytes 0 bs⟩

/-- The first `n` bytes of a buffer. -/
def Buffer.bytes (b : Buffer) (n : Nat) : List Byte := b.cells.readBytes 0 n

/-- The buffer with a byte sequence written from an address up. -/
def Buffer.writeBytes (b : Buffer) (a : Nat) (bs : List Byte) : Buffer := { b with cells := b.cells.writeBytes a bs }

/-! ## One update for each register -/

def State.setLanes (s : State) (x : Option Lanes) : State := { s with v := x }
def State.setPhase (s : State) (x : BitVec 4) : State := { s with phase := x }
def State.setWidx (s : State) (x : Option Nat) : State := { s with widx := x }
def State.setLatched (s : State) (x : Option Latched) : State := { s with latched := x }
def State.setStatus (s : State) (x : Status) : State := { s with status := x }
def State.setErrinfo (s : State) (x : BitVec 16) : State := { s with errinfo := x }
def State.setTagreg (s : State) (x : Bytes8) : State := { s with tagreg := x }
def State.setTag (s : State) (x : Buffer) : State := { s with tag := x }
def State.setPending (s : State) (x : List HostMove) : State := { s with pending := x }

/-- The buffer of a space. -/
def State.buffer (s : State) : Space → Buffer
  | .key => s.key
  | .msg => s.msg
  | .tag => s.tag

/-- The state with another buffer in a space (a host move; the engine itself writes `TAG` only). -/
def State.setBuffer (s : State) (sp : Space) (x : Buffer) : State :=
  match sp with
  | .key => { s with key := x }
  | .msg => { s with msg := x }
  | .tag => { s with tag := x }

/-! ## The codes of `phase` (R25) -/

def phaseIdle : BitVec 4 := 0x0
def phaseChk : BitVec 4 := 0x1
def phaseInit : BitVec 4 := 0x2
def phaseCmpr : BitVec 4 := 0x3
def phaseTail : BitVec 4 := 0x4
def phaseFin : BitVec 4 := 0x5
def phaseOut : BitVec 4 := 0x6
def phaseCmp : BitVec 4 := 0x7
def phaseZer : BitVec 4 := 0x8

/-! ## Going on after a read -/

/-- The outcome of a stop. -/
def Stop.toOutcome : Stop → Host.Outcome State Fault Refusal
  | .fault f => .fault f
  | .refused r => .refused r

/-- Go on with the value read, or stop. -/
def andThen {α : Type} (r : Except Stop α) (k : α → Host.Outcome State Fault Refusal) :
    Host.Outcome State Fault Refusal :=
  match r with
  | .ok x => k x
  | .error e => e.toOutcome

/-! ## Memory accesses of the engine -/

/-- `MemRead(S, a, n)` (R54): inside the buffer the `n` bytes, lowest address first; outside it no meaning. -/
def memRead (sp : Space) (a n : Nat) (s : State) : Except Stop (List Byte) :=
  match readLatched s with
  | .error e => .error e
  | .ok l => if a + n ≤ l.len sp then .ok ((s.buffer sp).cells.readBytes a n) else .error (.refused .readOutsideBuffer)

/-- `MemWrite(S, a, n, s)` (R55): defined only for the eight bytes of `TAG` of a `COMPUTE_TAG` with `tag_len = 8`. -/
def memWrite (sp : Space) (a n : Nat) (bs : List Byte) (s : State) : Except Stop State :=
  match readLatched s with
  | .error e => .error e
  | .ok l =>
    if sp = .tag ∧ a = 0 ∧ n = 8 ∧ bs.length = 8 ∧ l.tagLen = 8 ∧ l.op = .computeTag then
      .ok (s.setTag (s.tag.writeBytes a bs))
    else .error (.refused .writeNotDefined)

/-! ## Taking an error, and the end of a command -/

/-- `raise E(param, req_len)` (R204): STATUS, ERRINFO and phase; the command has ended, so `v` and `widx` are UNSPEC (R109,
R22; log entry 16), as they already are in every run from reset. -/
def raise (e : Err) (s : State) : State :=
  ((((s.setStatus (Status.raised e)).setErrinfo e.info).setPhase phaseIdle).setLanes none).setWidx none

/-- The end of a command that completes (R109): busy and done, `phase <- IDLE`, `v` and `widx` become UNSPEC. -/
def endCommand (s : State) : State := (((s.setStatus s.status.ended).setPhase phaseIdle).setLanes none).setWidx none

/-! ## What the host reads (R31) -/

/-- `IR1 STATUS` (R29). -/
def readStatus (s : State) : BitVec 8 := statusWord s.status

/-- `IR2 ERRINFO` (R30). -/
def readErrinfo (s : State) : BitVec 16 := s.errinfo

/-- `IR3 DBG_TAGREG`, the test hook, `le64(TAGREG[0..7])`; not one of the host's moves (R31, R222). -/
def dbgTagreg (s : State) : Word := le64 s.tagreg.toList

end Sys2Proof.Machine
end

