-- ==== Sys2Proof/Machine/Commands.lean ====
section
/-! DEFINITION. The commands and the precondition check (40_commands.md): `START` for both commands, `IDLE`, `CHK`. -/

namespace Sys2Proof.Machine

/-- The lengths the descriptor says are inside the buffers the host provides (R242). -/
def launchLengths (l : Latched) (s : State) : Bool :=
  decide (l.keyLen ≤ s.key.size) && decide (l.tagLen ≤ s.tag.size) && decide (l.msgLen ≤ s.msg.size)

/-- The state from `START` (R101). ERRINFO is cleared with the error state (R208, R30; log entry 13). -/
def started (l : Latched) (s : State) : State :=
  (((s.setLatched (some l)).setStatus Status.started).setErrinfo 0x0000).setPhase phaseChk

/-- `START` (R101): while `busy = 1` it has no meaning (R114), nor with a length larger than its buffer (R242). -/
def start (l : Latched) (s : State) : Host.Outcome State Fault Refusal :=
  if s.status.busy then .refused .startWhileBusy
  else if launchLengths l s then .next (started l s)
  else .refused .lengthBeyondBuffer

/-- `COMPUTE_TAG` (R102): its `START`; the uops that follow are steps of their own (R9, R104). -/
def execComputeTag (keyLen tagLen msgLen : Nat) (s : State) : Host.Outcome State Fault Refusal :=
  start ⟨.computeTag, keyLen, tagLen, msgLen⟩ s

/-- `VERIFY_TAG` (R103): its `START`; the uops that follow are steps of their own (R9, R104). -/
def execVerifyTag (keyLen tagLen msgLen : Nat) (s : State) : Host.Outcome State Fault Refusal :=
  start ⟨.verifyTag, keyLen, tagLen, msgLen⟩ s

/-- `IDLE` (R106). -/
def execIdle (s : State) : Host.Outcome State Fault Refusal := .next (s.setPhase phaseIdle)

/-- `key_bad` (R107). -/
def keyBad (l : Latched) : Bool := decide (l.keyLen ≠ 16)

/-- `tag_bad` (R107): a VERIFY_TAG's tag length is not examined. -/
def tagBad (l : Latched) : Bool := decide (l.op = .computeTag) && decide (l.tagLen ≠ 8)

/-- The error of a COMPUTE_TAG with both lengths wrong (R108). -/
def bothWrong : Config.ErrPriority → Err
  | .tagFirst => .invalidTagBufferLength
  | .keyFirst => .invalidKeyLength

/-- The error `CHK` finds, if any (R107, R108). -/
def chkError (p : Config.ErrPriority) (l : Latched) : Option Err :=
  match keyBad l, tagBad l with
  | false, false => none
  | false, true => some .invalidTagBufferLength
  | true, false => some .invalidKeyLength
  | true, true => some (bothWrong p)

/-- `CHK` (R107, R108). -/
def execChk (s : State) : Host.Outcome State Fault Refusal :=
  andThen (readLatched s) fun l =>
  match chkError Config.errPriority l with
  | none => .next (s.setPhase phaseInit)
  | some e => .next (raise e s)

end Sys2Proof.Machine
end

