-- ==== Sys2Proof/Machine/Round.lean ====
section
/-! DEFINITION. The round function (42_round.md): the three word operations, the two half-rounds, the round and its
repetition. Pure functions with no encoding (30_encoding.md R80). -/

namespace Sys2Proof.Machine

/-- `ADD64` (R131): the carry out of bit 63 is dropped. -/
def add64 (a b : Word) : Word := a + b

/-- `ROTL64` (R132), for 0 < n < 64. -/
def rotl64 (a : Word) (n : Nat) : Word := (a <<< n) ||| (a >>> (64 - n))

/-- `XOR64` (R133). -/
def xor64 (a b : Word) : Word := a ^^^ b

/-- `HALF_A` (R134): v1 into v0 and v3 into v2; the sums use the unrotated words, the feedback the rotated ones and the
sum not yet rotated by 32. -/
def halfA (v : Lanes) : Lanes :=
  let a0 := add64 v.v0 v.v1
  let a2 := add64 v.v2 v.v3
  let r1 := rotl64 v.v1 Config.rotA1
  let r3 := rotl64 v.v3 Config.rotA3
  { v0 := rotl64 a0 Config.rotA0, v1 := xor64 r1 a0, v2 := a2, v3 := xor64 r3 a2 }

/-- `HALF_B` (R135): v1 into v2 and v3 into v0, crossed with respect to `HALF_A`. -/
def halfB (v : Lanes) : Lanes :=
  let a2 := add64 v.v2 v.v1
  let a0 := add64 v.v0 v.v3
  let r1 := rotl64 v.v1 Config.rotB1
  let r3 := rotl64 v.v3 Config.rotB3
  { v0 := a0, v1 := xor64 r1 a2, v2 := rotl64 a2 Config.rotB2, v3 := xor64 r3 a0 }

/-- `SIPROUND` (R136). -/
def sipRound (v : Lanes) : Lanes := halfB (halfA v)

/-- `SIPROUND^n` (R139). -/
def sipRounds : Nat → Lanes → Lanes
  | 0, v => v
  | n + 1, v => sipRounds n (sipRound v)

/-- The round as the flat list of fourteen word operations (R137), each line using what the lines before it left. -/
def sipRoundFlat (v : Lanes) : Lanes :=
  let v := { v with v0 := add64 v.v0 v.v1 }
  let v := { v with v2 := add64 v.v2 v.v3 }
  let v := { v with v1 := rotl64 v.v1 13 }
  let v := { v with v3 := rotl64 v.v3 16 }
  let v := { v with v1 := xor64 v.v1 v.v0 }
  let v := { v with v3 := xor64 v.v3 v.v2 }
  let v := { v with v0 := rotl64 v.v0 32 }
  let v := { v with v2 := add64 v.v2 v.v1 }
  let v := { v with v0 := add64 v.v0 v.v3 }
  let v := { v with v1 := rotl64 v.v1 17 }
  let v := { v with v3 := rotl64 v.v3 21 }
  let v := { v with v1 := xor64 v.v1 v.v2 }
  let v := { v with v3 := xor64 v.v3 v.v0 }
  { v with v2 := rotl64 v.v2 32 }

end Sys2Proof.Machine
end

