-- ==== Sys2Proof/Machine/Finalize.lean ====
section
/-! DEFINITION. Finalization and tag output (45_finalize_output.md): `XRED`, `ENC` and the uops `FIN` and `OUT`. -/

namespace Sys2Proof.Machine

/-- The state words after finalization (R171): `0xff` into v2, then four rounds. -/
def finalizeLanes (v : Lanes) : Lanes := sipRounds Config.dRounds { v with v2 := xor64 v.v2 Config.finConst }

/-- `FIN` (R171). -/
def execFin (s : State) : Host.Outcome State Fault Refusal :=
  andThen (readLanes s) fun v =>
  .next ((s.setLanes (some (finalizeLanes v))).setPhase phaseOut)

/-- `XRED` (R173). -/
def xred (v : Lanes) : Word := xor64 (xor64 (xor64 v.v0 v.v1) v.v2) v.v3

/-- `ENC` (R174). -/
def enc (t : Word) : Bytes8 := encLe64 t

/-- `OUT` (R175): a COMPUTE_TAG's tag goes to `TAG` and the command ends; a VERIFY_TAG's goes to `TAGREG`. -/
def execOut (s : State) : Host.Outcome State Fault Refusal :=
  andThen (readLatched s) fun l =>
  andThen (readLanes s) fun v =>
  match l.op with
  | .computeTag => andThen (memWrite .tag 0 8 (enc (xred v)).toList s) fun t => .next (endCommand t)
  | .verifyTag => .next (((s.setTagreg (enc (xred v))).setLanes none).setPhase phaseCmp)

end Sys2Proof.Machine
end

