-- ==== Sys2Proof/Machine/Init.lean ====
section
/-! DEFINITION. Initialization (41_init.md): `INITSTATE` and the uop `INIT`. -/

namespace Sys2Proof.Machine

/-- `INITSTATE(k0, k1)` (R122). -/
def initState (k0 k1 : Word) : Lanes where
  v0 := xor64 k0 Config.initC0
  v1 := xor64 k1 Config.initC1
  v2 := xor64 k0 Config.initC2
  v3 := xor64 k1 Config.initC3

/-- `INIT` (R121). -/
def execInit (s : State) : Host.Outcome State Fault Refusal :=
  andThen (readLatched s) fun l =>
  andThen (memRead .key 0 8 s) fun k0 =>
  andThen (memRead .key 8 8 s) fun k1 =>
  .next (((s.setLanes (some (initState (le64 k0) (le64 k1)))).setWidx (some 0)).setPhase
    (if 0 < l.nwords then phaseCmpr else phaseTail))

end Sys2Proof.Machine
end

