-- ==== Sys2Proof/Machine/Compress.lean ====
section
/-! DEFINITION. Compression of full message words (43_compress.md): `COMPRESS` and the uop `CMPR`. -/

namespace Sys2Proof.Machine

/-- `COMPRESS(V, b)` (R151): XOR into v3, two rounds, XOR into v0, in this order (R153). -/
def compress (v : Lanes) (b : Word) : Lanes :=
  let w := sipRounds Config.cRounds { v with v3 := xor64 v.v3 b }
  { w with v0 := xor64 w.v0 b }

/-- `CMPR` (R152); the successor is decided by the new `widx` (R104). -/
def execCmpr (s : State) : Host.Outcome State Fault Refusal :=
  andThen (readLatched s) fun l =>
  andThen (readWidx s) fun w =>
  andThen (memRead .msg (8 * w) 8 s) fun b =>
  andThen (readLanes s) fun v =>
  .next (((s.setLanes (some (compress v (le64 b)))).setWidx (some (w + 1))).setPhase
    (if w + 1 < l.nwords then phaseCmpr else phaseTail))

end Sys2Proof.Machine
end

