-- ==== Sys2Proof/Machine/Tail.lean ====
section
/-! DEFINITION. The tail-byte packer and the uop `TAIL` (44_tail.md). -/

namespace Sys2Proof.Machine

/-- The bytes `s[0] | s[1] << 8 | ...`, byte `j` of the whole at bits `8j+7:8j` (R161); `j` is the first byte's index. -/
def packBytes : Nat → List Byte → Word
  | _, [] => 0
  | j, b :: bs => (b.setWidth 64 <<< (8 * j)) ||| packBytes (j + 1) bs

/-- `PACK(s, L)` (R161): the length byte at bits 63:56, leftover byte `j` at bits `8j+7:8j`, the rest zero
(90_conflicts.md C2). -/
def pack (s : List Byte) (L : Nat) : Word := (BitVec.ofNat 64 (L % 256) <<< 56) ||| packBytes 0 s

/-- `TAIL` (R163); it reads `widx`, which equals `nwords` here (R27), and leaves it unchanged. -/
def execTail (s : State) : Host.Outcome State Fault Refusal :=
  andThen (readLatched s) fun l =>
  andThen (readWidx s) fun _ =>
  andThen (memRead .msg (8 * l.nwords) l.left s) fun bs =>
  andThen (readLanes s) fun v =>
  .next ((s.setLanes (some (compress v (pack bs l.msgLen)))).setPhase phaseFin)

end Sys2Proof.Machine
end

