-- ==== Sys2Proof/Machine/Verify.lean ====
section
/-! DEFINITION. Tag verification (46_verify.md): the uops `CMP` and `ZER`. -/

namespace Sys2Proof.Machine

/-- `CMP` (R186): equality of two sequences of eight bytes when `tag_len = 8`, else the verdict 0; with another length no
byte of `TAG` is read (R187, 93_implementation_defined.md U10). -/
def execCmp (s : State) : Host.Outcome State Fault Refusal :=
  andThen (readLatched s) fun l =>
  if l.tagLen = 8 then
    andThen (memRead .tag 0 8 s) fun g =>
    .next ((s.setStatus (s.status.withResult (decide (g = s.tagreg.toList)))).setPhase phaseZer)
  else
    .next ((s.setStatus (s.status.withResult false)).setPhase phaseZer)

/-- `ZER` (R188): zero `TAGREG`, whatever the verdict, and end the command (R109). -/
def execZer (s : State) : Host.Outcome State Fault Refusal :=
  .next (endCommand (s.setTagreg Bytes8.zero))

end Sys2Proof.Machine
end

