-- ==== Sys2Proof/Machine/Dispatch.lean ====
section
/-! DEFINITION. One arm for each instruction. -/

namespace Sys2Proof.Machine

def exec (i : Instr) (s : State) : Host.Outcome State Fault Refusal :=
  match i with
  | .computeTag k t m => Sys2Proof.Machine.execComputeTag k t m s
  | .verifyTag k t m => Sys2Proof.Machine.execVerifyTag k t m s
  | .idle => Sys2Proof.Machine.execIdle s
  | .chk => Sys2Proof.Machine.execChk s
  | .init => Sys2Proof.Machine.execInit s
  | .cmpr => Sys2Proof.Machine.execCmpr s
  | .tail => Sys2Proof.Machine.execTail s
  | .fin => Sys2Proof.Machine.execFin s
  | .out => Sys2Proof.Machine.execOut s
  | .cmp => Sys2Proof.Machine.execCmp s
  | .zer => Sys2Proof.Machine.execZer s

end Sys2Proof.Machine
end

