-- ==== Sys2Proof/Machine/HostPort.lean ====
section
/-! DEFINITION. What the world outside the engine does between two uops, other than writing a descriptor: the host's
accesses to its buffers (20_memory.md R62; 70_reset_and_hazards.md R234, R240) and the reset event (R231 to R233). -/

namespace Sys2Proof.Machine

/-- The host provides a buffer, not while a command runs (R234, R240). -/
def hostProvide (sp : Space) (bytes : List Byte) (s : State) : Host.Outcome State Fault Refusal :=
  if s.status.busy then .refused .hostAccessWhileBusy
  else .next (s.setBuffer sp (Buffer.ofBytes bytes))

/-- The host writes one byte of a buffer, not while a command runs (R240). -/
def hostWriteByte (sp : Space) (a : Nat) (b : Byte) (s : State) : Host.Outcome State Fault Refusal :=
  if s.status.busy then .refused .hostAccessWhileBusy
  else if a < (s.buffer sp).size then .next (s.setBuffer sp ((s.buffer sp).writeBytes a [b]))
  else .refused .hostAccessOutsideBuffer

/-- The byte the host reads from `TAG`, not while a command runs (R62, R241). -/
def hostTagByte (a : Nat) (s : State) : Except Stop Byte :=
  if s.status.busy then .error (.refused .hostAccessWhileBusy)
  else if a < s.tag.size then .ok (s.tag.read a)
  else .error (.refused .hostAccessOutsideBuffer)

/-- The host reads one byte of `TAG`: no state changes (R54). -/
def hostReadTag (a : Nat) (s : State) : Host.Outcome State Fault Refusal :=
  andThen (hostTagByte a s) fun _ => .next s

/-- The `k` free bytes from draw `n` on (R233). -/
def freeBytes (n : Nat) : Nat → List Byte
  | 0 => []
  | k + 1 => Config.freeByte n :: freeBytes (n + 1) k

/-- A COMPUTE_TAG is in progress. -/
def computing (s : State) : Bool := s.status.busy && decide (s.latched.map Latched.op = some .computeTag)

/-- How many bytes of `TAG` a reset leaves as any value: those of `TAG[0..7]` the buffer has (R233). -/
def tornBytes (s : State) : Nat := min 8 s.tag.size

/-- The `TAG` buffer after a reset: any value in the bytes of an abandoned COMPUTE_TAG's tag, else unchanged (R232,
R233; log entry 9). -/
def tagAfterReset (s : State) : Buffer :=
  if computing s then s.tag.writeBytes 0 (freeBytes s.freeCount (tornBytes s)) else s.tag

/-- The reset event (R231): every register of the engine at its value of R40; `KEY` and `MSG` unchanged. -/
def resetEvent (s : State) : State :=
  { State.reset with
    key := s.key
    msg := s.msg
    tag := tagAfterReset s
    pending := s.pending
    freeCount := if computing s then s.freeCount + tornBytes s else s.freeCount }

end Sys2Proof.Machine
end

