-- ==== Sys2Proof/Machine/Fetch.lean ====
section
/-! DEFINITION. What happens next: the uop that `phase` names (10_state.md R25), the command a written descriptor starts
(R31), or a move of the outside world. -/

namespace Sys2Proof.Machine

/-- What a step does: run an instruction in a state, or an outcome already reached. -/
inductive Action where
  | run (i : Instr) (s : State)
  | settled (o : Host.Outcome State Fault Refusal)

/-- A decoder's rejection as a refusal (R85, R86). -/
def refusalOf : DecodeError → Refusal
  | .reservedOpcode o => .reservedOpcode o
  | .reservedUop c => .reservedUop c
  | .tooWide => .tooWide

/-- Run what a decoder reads, or refuse by name. -/
def dispatchDecoded (r : Except DecodeError Instr) (s : State) : Action :=
  match r with
  | .ok i => .run i s
  | .error e => .settled (.refused (refusalOf e))

/-- The uop `phase` names (R25, R86). -/
def fetchUop (s : State) : Action := dispatchDecoded (decodeUop s.phase) s

/-- The next action: the host's next move comes first, and with none left the engine runs. -/
def fetch (s : State) : Action :=
  match s.pending with
  | [] => fetchUop s
  | .letRun :: rest => fetchUop (s.setPending rest)
  | .writeDesc d :: rest => dispatchDecoded (decodeDescriptor d) (s.setPending rest)
  | .provide sp bytes :: rest => .settled (hostProvide sp bytes (s.setPending rest))
  | .writeByte sp a b :: rest => .settled (hostWriteByte sp a b (s.setPending rest))
  | .readTag a :: rest => .settled (hostReadTag a (s.setPending rest))
  | .reset :: rest => .settled (.next (resetEvent (s.setPending rest)))

/-! ## Placing one instruction where the next step fetches it (log entry 10) -/

/-- The descriptor of a command in which the uop with code `c` runs: a VERIFY_TAG for CMP and ZER. -/
def contextLatched (c : BitVec 4) : Latched :=
  if c = phaseCmp ∨ c = phaseZer then ⟨.verifyTag, 16, 8, 8⟩ else ⟨.computeTag, 16, 8, 8⟩

/-- A register that holds no value given one; a register that holds one is left alone. -/
def fillUnspec {α : Type} (r : Option α) (x : α) : Option α := some (r.getD x)

/-- The uops that read `v[0..3]` (R21). -/
def readsLanes (c : BitVec 4) : Bool := c == phaseCmpr || c == phaseTail || c == phaseFin || c == phaseOut

/-- The command in progress in which the uop with code `c` is the next one: `busy` set, and the registers the uop reads
hold a value where they hold none. -/
def inCommand (c : BitVec 4) (s : State) : State :=
  let l := s.latched.getD (contextLatched c)
  { s with
    status := { s.status with busy := true }
    latched := some l
    v := if readsLanes c then fillUnspec s.v ⟨0, 0, 0, 0⟩ else s.v
    widx :=
      if c = phaseCmpr then fillUnspec s.widx 0 else if c = phaseTail then fillUnspec s.widx l.nwords else s.widx }

/-- The uop with code `c` as the engine's next one. -/
def placeUop (c : BitVec 4) (s : State) : State :=
  let t := if c = phaseIdle then s else inCommand c s
  { t with phase := c, pending := .letRun :: s.pending }

/-- A descriptor as the host's next move. -/
def placeDescriptor (d : Descriptor) (s : State) : State := s.setPending (.writeDesc d :: s.pending)

/-- An encoded instruction where the next step fetches it. -/
def placeEncoded (lenW : Nat) (e : Encoded) (s : State) : State :=
  match e with
  | .uop c => placeUop c s
  | .command w => placeDescriptor (Descriptor.unpack lenW w) s

end Sys2Proof.Machine
end

