-- ==== Sys2Proof/Machine/Step.lean ====
section
/-! DEFINITION. One step of the machine: the next action, and the instruction it runs, if it runs one. -/

namespace Sys2Proof.Machine

/-- One step: one uop, one `START`, or one move of the outside world (00_scope.md R9, R10). -/
def step (s : State) : Host.Outcome State Fault Refusal :=
  match fetch s with
  | .run i t => exec i t
  | .settled o => o

/-- The instruction whose bits are `w`, numbered as the opcode table numbers them, where the next step fetches it: a
descriptor as the host's next write of IR0, a uop in `phase` inside a command (log entries 10, 11). -/
def State.withFetchWord (s : State) (nbits w : Nat) : State :=
  placeEncoded (tableLenW nbits) (tableWord nbits w) s

end Sys2Proof.Machine
end

