-- ==== Sys2Proof/Machine/ClosedForm.lean ====
section
/-! DEFINITION. What a command computes, in closed form, and the uop sequence a descriptor gives (40_commands.md R105,
R110). No step calls these; claims compare the steps with them. -/

namespace Sys2Proof.Machine

/-- Full word `i` of a message (R150). -/
def messageWord (M : List Byte) (i : Nat) : Word := le64 ((M.drop (8 * i)).take 8)

/-- The state words after the first `n` full words (R110). -/
def absorbWords (M : List Byte) (v : Lanes) : Nat → Lanes
  | 0 => v
  | n + 1 => compress (absorbWords M v n) (messageWord M n)

/-- The state words a key gives (R120, R122). -/
def keyLanes (K : List Byte) : Lanes := initState (le64 (K.take 8)) (le64 ((K.drop 8).take 8))

/-- `SIPHASH24(K, M)` (R110). -/
def sipHash24 (K M : List Byte) : Bytes8 :=
  let n := M.length / 8
  let v := absorbWords M (keyLanes K) n
  let w := compress v (pack (M.drop (8 * n)) M.length)
  enc (xred (finalizeLanes w))

/-- The number eight bytes of a buffer spell from an address up, byte `j` at weight `2^(8j)` (R120, R150). -/
def Buffer.wordNat (b : Buffer) (a : Nat) : Nat := ∑ j ∈ Finset.range 8, (b.read (a + j)).toNat * 2 ^ (8 * j)

/-- The tail word of a message of `L` bytes as a number: the length byte at weight `2^56`, leftover byte `j` at weight
`2^(8j)` (R160, R161). -/
def Buffer.tailNat (b : Buffer) (L : Nat) : Nat :=
  L % 256 * 2 ^ 56 + ∑ j ∈ Finset.range (L % 8), (b.read (8 * (L / 8) + j)).toNat * 2 ^ (8 * j)

/-- The codes of the uops a command executes, in order (R105). -/
def uopSequence (l : Latched) : List (BitVec 4) :=
  if l.keyLen = 16 ∧ (l.op = .computeTag → l.tagLen = 8) then
    [phaseChk, phaseInit] ++ List.replicate (l.msgLen / 8) phaseCmpr ++ [phaseTail, phaseFin, phaseOut] ++
      (if l.op = .verifyTag then [phaseCmp, phaseZer] else [])
  else [phaseChk]

end Sys2Proof.Machine
end

