-- ==== Sys2Proof/Safety.lean ====
section
/-! DEFINITION. What claims speak of: the invariant of the engine, the phases a run goes through, and what the engine
shows the outside world. -/

namespace Sys2Proof.Machine

/-- The three buffers are in canonical form and inside their sizes. -/
abbrev BuffersCanonical (s : State) : Prop := s.key.wf = true ∧ s.msg.wf = true ∧ s.tag.wf = true

/-- `phase` holds one of the nine codes, and `IDLE` exactly when no command is in progress (R25, R86, R113). -/
abbrev PhaseLegal (s : State) : Prop := s.phase.toNat ≤ 8 ∧ (s.status.busy = true ↔ s.phase ≠ phaseIdle)

/-- `ERRINFO` as a function of `STATUS.err` (R30). -/
def errinfoOf (e : BitVec 2) : BitVec 16 := if e = 1 then 0x0110 else if e = 2 then 0x0208 else 0x0000

/-- STATUS and ERRINFO agree with each other and with the command (R29, R30, R86). -/
abbrev StatusCoherent (s : State) : Prop :=
  s.status.err ≠ 3 ∧ s.errinfo = errinfoOf s.status.err ∧
    (s.status.busy = true → s.status.done = false ∧ s.status.err = 0) ∧
    (s.status.err ≠ 0 → s.status.done = true ∧ s.status.result = false) ∧
    (s.status.result = true →
      (s.phase = phaseZer ∨ s.status.done = true) ∧ s.latched.map Latched.op = some .verifyTag)

/-- `TAGREG` is zero but between `OUT` and `ZER` of a VERIFY_TAG (R32, R33). -/
abbrev TagregZeroed (s : State) : Prop := s.phase ≠ phaseCmp → s.phase ≠ phaseZer → s.tagreg = Bytes8.zero

/-- The uops before which the state words hold a value (R22, R113). -/
abbrev LanesExpected (c : BitVec 4) : Prop := c = phaseCmpr ∨ c = phaseTail ∨ c = phaseFin ∨ c = phaseOut

/-- The state words hold a value exactly from `INIT` to `OUT` (R22). -/
abbrev LanesHeld (s : State) : Prop := s.v.isSome = true ↔ LanesExpected s.phase

/-- `widx` holds a value exactly from `INIT` to the end of the command (R27). -/
abbrev WidxHeld (s : State) : Prop :=
  s.widx.isSome = true ↔ LanesExpected s.phase ∨ s.phase = phaseCmp ∨ s.phase = phaseZer

/-- `widx` counts the words compressed: below `nwords` before a `CMPR`, equal to it later (R27). -/
abbrev WidxCounts (s : State) : Prop :=
  ∀ l ∈ s.latched, ∀ w ∈ s.widx, if s.phase = phaseCmpr then w < l.nwords else w = l.nwords

/-- While a command runs its descriptor is latched and its lengths lie in the buffers; past `CHK` they are the right ones
(R28, R107, R242); `CMP` and `ZER` belong to a VERIFY_TAG (R104). -/
abbrev DescriptorLatched (s : State) : Prop :=
  (s.status.busy = true → s.latched.isSome = true) ∧
    ∀ l ∈ s.latched, s.status.busy = true →
      launchLengths l s = true ∧
        (s.phase ≠ phaseChk → keyBad l = false ∧ tagBad l = false) ∧
        (s.phase = phaseCmp ∨ s.phase = phaseZer → l.op = .verifyTag)

/-- The invariant. -/
abbrev EngineInv (s : State) : Prop :=
  BuffersCanonical s ∧ PhaseLegal s ∧ StatusCoherent s ∧ TagregZeroed s ∧ LanesHeld s ∧ WidxHeld s ∧ WidxCounts s ∧
    DescriptorLatched s

/-- A command has ended (R109): not busy, done, `phase` IDLE, and neither the state words nor `widx` hold a value. -/
abbrev CommandEnded (t : State) : Prop :=
  t.status.busy = false ∧ t.status.done = true ∧ t.phase = phaseIdle ∧ t.v = none ∧ t.widx = none

/-- The values `phase` has before each of the next `k` steps, as long as they succeed. -/
def phaseTrace : Nat → State → List (BitVec 4)
  | 0, _ => []
  | k + 1, s =>
    s.phase :: (match step s with
      | .next t => phaseTrace k t
      | .fault _ => []
      | .refused _ => [])

/-- What a command leaves for the world outside: STATUS, ERRINFO, the three buffers, and TAGREG (R109, R115). -/
structure View where
  status : BitVec 8
  errinfo : BitVec 16
  tagreg : Bytes8
  key : Buffer
  msg : Buffer
  tag : Buffer
  deriving DecidableEq, Repr

/-- The view of a state. -/
def State.view (s : State) : View := ⟨readStatus s, readErrinfo s, s.tagreg, s.key, s.msg, s.tag⟩

end Sys2Proof.Machine
end

