-- ==== Sys2Proof/Certificates/Slice0/Obligations.lean ====
section
/-! DEFINITION. The statements for the provers. Each docstring names the rules it formalises. -/

open Sys2Proof Sys2Proof.Machine

/-! ## Encoding -/

/-- R84: the opcode map of both formats. -/
def Obligations.OpcodeMapOfBothFormats : Prop :=
  decodeUop 0x0 = .ok .idle ∧ decodeUop 0x1 = .ok .chk ∧ decodeUop 0x2 = .ok .init ∧
  decodeUop 0x3 = .ok .cmpr ∧ decodeUop 0x4 = .ok .tail ∧ decodeUop 0x5 = .ok .fin ∧
  decodeUop 0x6 = .ok .out ∧ decodeUop 0x7 = .ok .cmp ∧ decodeUop 0x8 = .ok .zer ∧
  ∀ k t m : Nat,
    decodeDescriptor ⟨0x00, k, t, m⟩ = .ok (.computeTag k t m) ∧
    decodeDescriptor ⟨0x01, k, t, m⟩ = .ok (.verifyTag k t m)

/-- R85 and the reserved uop codes of 30_encoding.md section 4: a step refuses a reserved opcode the host writes and a
reserved code in `phase`, by name. -/
def Obligations.ReservedCodesRefusedByStep : Prop :=
  (∀ (s : State) (d : Descriptor) (rest : List HostMove), 2 ≤ d.opcode.toNat → s.pending = .writeDesc d :: rest →
    step s = .refused (.reservedOpcode d.opcode)) ∧
  (∀ s : State, 9 ≤ s.phase.toNat → s.pending = [] → step s = .refused (.reservedUop s.phase))

/-- R81, R82, R84: decoding an encoded well-formed instruction gives it back, for every width of the length fields. -/
def Obligations.DecodeOfEncodeGivesInstruction : Prop :=
  ∀ (lenW : Nat) (i : Instr), i.wf lenW = true → decode lenW (encode lenW i) = .ok i

/-- R81, R84: each word has one meaning: what decodes to an instruction is that instruction's encoding, and the
instruction is well formed. -/
def Obligations.EncodeOfDecodeGivesWord : Prop :=
  ∀ (lenW : Nat) (e : Encoded) (i : Instr), decode lenW e = .ok i → encode lenW i = e ∧ i.wf lenW = true

/-- R81: the places of the descriptor's fields, and its width. -/
def Obligations.DescriptorFieldPlaces : Prop :=
  ∀ (lenW : Nat) (o : BitVec 8) (k t m : Nat), k < 2 ^ lenW → t < 2 ^ lenW → m < 2 ^ lenW →
    let w := Descriptor.pack lenW ⟨o, k, t, m⟩
    w % 2 ^ 8 = o.toNat ∧
    w / 2 ^ 8 % 2 ^ lenW = k ∧
    w / 2 ^ (8 + lenW) % 2 ^ lenW = t ∧
    w / 2 ^ (8 + 2 * lenW) % 2 ^ lenW = m ∧
    w < 2 ^ (8 + 3 * lenW)

/-- 95_test_vectors.md section 5: the descriptors of programs P2 and P4 for LEN_W = 64, and two uop codes, as the opcode
table numbers their bits. -/
def Obligations.WordsOfTheSpecDecode : Prop :=
  decodeTableWord 200 0x000000000000000f0000000000000008000000000000001000 = some (.computeTag 16 8 15) ∧
  decodeTableWord 200 0x00000000000000090000000000000008000000000000001001 = some (.verifyTag 16 8 9) ∧
  decodeTableWord 4 0b0001 = some .chk ∧
  decodeTableWord 4 0b0110 = some .out

/-! ## The step -/

/-- R25, R104: with no host move before it, a step is the uop that `phase` names. -/
def Obligations.StepRunsUopOfPhase : Prop :=
  ∀ (s : State) (i : Instr), decodeUop s.phase = .ok i →
    (s.pending = [] → step s = exec i s) ∧
    (∀ rest, s.pending = .letRun :: rest → step s = exec i { s with pending := rest })

/-- R31, R101: a descriptor the host writes runs its command, with the rest of the host's moves still to come. -/
def Obligations.StepRunsWrittenDescriptor : Prop :=
  ∀ (s : State) (d : Descriptor) (rest : List HostMove) (i : Instr),
    s.pending = .writeDesc d :: rest → decodeDescriptor d = .ok i → step s = exec i { s with pending := rest }

/-! ## Commands and the precondition check -/

/-- R101, with ERRINFO cleared as R208 and R30 ask (log entry 13): both commands complete their START when the engine is
not busy and the lengths lie in the buffers, and write nothing else. -/
def Obligations.StartLatchesDescriptor : Prop :=
  ∀ (s : State) (k t m : Nat), s.status.busy = false →
    k ≤ s.key.size → t ≤ s.tag.size → m ≤ s.msg.size →
    exec (.computeTag k t m) s = .next { s with
      latched := some ⟨.computeTag, k, t, m⟩, status := ⟨true, false, 0, false⟩, errinfo := 0, phase := 0x1 } ∧
    exec (.verifyTag k t m) s = .next { s with
      latched := some ⟨.verifyTag, k, t, m⟩, status := ⟨true, false, 0, false⟩, errinfo := 0, phase := 0x1 }

/-- R239: a START while busy has no meaning; the step refuses it, whatever the lengths. -/
def Obligations.StartWhileBusyRefused : Prop :=
  ∀ (s : State) (d : Descriptor) (rest : List HostMove), s.status.busy = true → d.opcode.toNat < 2 →
    s.pending = .writeDesc d :: rest → step s = .refused .startWhileBusy

/-- R242: a length larger than the buffer the host provides has no meaning. -/
def Obligations.FalseLengthsRefused : Prop :=
  ∀ (s : State) (k t m : Nat), s.status.busy = false →
    (s.key.size < k ∨ s.tag.size < t ∨ s.msg.size < m) →
    exec (.computeTag k t m) s = .refused .lengthBeyondBuffer ∧
    exec (.verifyTag k t m) s = .refused .lengthBeyondBuffer

/-- R107, R204: CHK passes to INIT and changes nothing else, or takes the one error the lengths name and writes STATUS,
ERRINFO and phase only; with both lengths of a COMPUTE_TAG wrong it takes exactly one of the two. Before INIT the state words
and `widx` hold no value (R22, R27; `EngineInv` says so of every reachable state), which is the premise of the raising
clauses. -/
def Obligations.ChkPassesOrRaises : Prop :=
  ∀ (s : State) (l : Latched), s.latched = some l →
    (l.keyLen = 16 → (l.op = .computeTag → l.tagLen = 8) → exec .chk s = .next { s with phase := 0x2 }) ∧
    (s.v = none → s.widx = none →
      (l.keyLen ≠ 16 → (l.op = .computeTag → l.tagLen = 8) → exec .chk s = .next { s with
        status := ⟨false, true, 1, false⟩, errinfo := 0x0110, phase := 0x0 }) ∧
      (l.keyLen = 16 → l.op = .computeTag → l.tagLen ≠ 8 → exec .chk s = .next { s with
        status := ⟨false, true, 2, false⟩, errinfo := 0x0208, phase := 0x0 }) ∧
      (l.keyLen ≠ 16 → l.op = .computeTag → l.tagLen ≠ 8 →
        exec .chk s = .next { s with status := ⟨false, true, 1, false⟩, errinfo := 0x0110, phase := 0x0 } ∨
        exec .chk s = .next { s with status := ⟨false, true, 2, false⟩, errinfo := 0x0208, phase := 0x0 }))

/-- R108: with both lengths of a COMPUTE_TAG wrong, ERR_PRIORITY chooses the error, whichever value it has. -/
def Obligations.ChkBothWrongFollowsPriority : Prop :=
  ∀ (s : State) (k t m : Nat), s.latched = some ⟨.computeTag, k, t, m⟩ → k ≠ 16 → t ≠ 8 → s.v = none → s.widx = none →
    exec .chk s =
      (match Config.errPriority with
      | .tagFirst => .next { s with status := ⟨false, true, 2, false⟩, errinfo := 0x0208, phase := 0x0 }
      | .keyFirst => .next { s with status := ⟨false, true, 1, false⟩, errinfo := 0x0110, phase := 0x0 })

/-- Derived (R109 and R204 together; log entry 16): taking an error from whatever state ends the command, with the state
words and `widx` holding no value, and changes nothing else. -/
def Obligations.RaiseEndsTheCommand : Prop :=
  ∀ (e : Err) (s : State), raise e s = { s with
    status := ⟨false, true, e.code, false⟩, errinfo := errinfoOf e.code, phase := 0x0, v := none, widx := none }

/-- R205: what the host observes after an error. -/
def Obligations.HostSeesTheError : Prop :=
  ∀ (s t : State), EngineInv s → s.phase = 0x1 → exec .chk s = .next t → t.phase = 0x0 →
    ((readStatus t = 0x06 ∧ readErrinfo t = 0x0110) ∨ (readStatus t = 0x0a ∧ readErrinfo t = 0x0208)) ∧
    t.key = s.key ∧ t.msg = s.msg ∧ t.tag = s.tag ∧ t.tagreg = ⟨0, 0, 0, 0, 0, 0, 0, 0⟩

/-- R106: IDLE changes no state, and while `phase` is IDLE the engine is not busy and TAGREG is zero. -/
def Obligations.IdleChangesNothing : Prop :=
  ∀ s : State, s.phase = 0x0 →
    exec .idle s = .next s ∧
    (EngineInv s → s.status.busy = false ∧ s.tagreg = ⟨0, 0, 0, 0, 0, 0, 0, 0⟩)

/-! ## The uops of the computation -/

/-- R121: INIT seeds the four state words from the two little-endian key words and the four constants. -/
def Obligations.InitSeedsStateWords : Prop :=
  ∀ (s : State) (l : Latched), s.latched = some l → 16 ≤ l.keyLen →
    let k0 : Word := BitVec.ofNat 64 (s.key.wordNat 0)
    let k1 : Word := BitVec.ofNat 64 (s.key.wordNat 8)
    exec .init s = .next { s with
      v := some ⟨k0 ^^^ 0x736f6d6570736575, k1 ^^^ 0x646f72616e646f6d,
        k0 ^^^ 0x6c7967656e657261, k1 ^^^ 0x7465646279746573⟩
      widx := some 0
      phase := if 0 < l.msgLen / 8 then 0x3 else 0x4 }

/-- R152: CMPR absorbs word `widx` of the message: XOR into v3, two rounds, XOR into v0. -/
def Obligations.CmprAbsorbsFullWord : Prop :=
  ∀ (s : State) (l : Latched) (v : Lanes) (w : Nat),
    s.latched = some l → s.v = some v → s.widx = some w → w < l.msgLen / 8 →
    let b : Word := BitVec.ofNat 64 (s.msg.wordNat (8 * w))
    let r := sipRound (sipRound ⟨v.v0, v.v1, v.v2, v.v3 ^^^ b⟩)
    exec .cmpr s = .next { s with
      v := some ⟨r.v0 ^^^ b, r.v1, r.v2, r.v3⟩
      widx := some (w + 1)
      phase := if w + 1 < l.msgLen / 8 then 0x3 else 0x4 }

/-- R163, R27: TAIL absorbs the tail word in the same way, for every message length; it reads `widx` and leaves it
unchanged. -/
def Obligations.TailAbsorbsTailWord : Prop :=
  ∀ (s : State) (l : Latched) (v : Lanes) (w : Nat), s.latched = some l → s.v = some v → s.widx = some w →
    let b : Word := BitVec.ofNat 64 (s.msg.tailNat l.msgLen)
    let r := sipRound (sipRound ⟨v.v0, v.v1, v.v2, v.v3 ^^^ b⟩)
    exec .tail s = .next { s with v := some ⟨r.v0 ^^^ b, r.v1, r.v2, r.v3⟩, phase := 0x5 }

/-- R171: FIN XORs 0xff into v2, once, and applies four rounds. -/
def Obligations.FinAppliesFourRounds : Prop :=
  ∀ (s : State) (v : Lanes), s.v = some v →
    exec .fin s = .next { s with
      v := some (sipRound (sipRound (sipRound (sipRound ⟨v.v0, v.v1, v.v2 ^^^ 0x00000000000000ff, v.v3⟩))))
      phase := 0x6 }

/-- R175: OUT of a COMPUTE_TAG writes the eight bytes of the tag and ends the command; every other byte of memory and
every other register reads as before. OUT of a VERIFY_TAG writes TAGREG and no buffer. -/
def Obligations.OutWritesTheTag : Prop :=
  ∀ (s : State) (l : Latched) (v : Lanes), s.latched = some l → s.v = some v →
    let x := v.v0 ^^^ v.v1 ^^^ v.v2 ^^^ v.v3
    (l.op = .computeTag → l.tagLen = 8 → s.tag.wf = true →
      ∃ tag' : Buffer,
        exec .out s = .next { s with
          tag := tag', v := none, widx := none
          status := { s.status with busy := false, done := true }, phase := 0x0 } ∧
        tag'.size = s.tag.size ∧
        (∀ j < 8, tag'.read j = (x >>> (8 * j)).setWidth 8) ∧
        (∀ a, 8 ≤ a → tag'.read a = s.tag.read a)) ∧
    (l.op = .verifyTag →
      ∃ e : Bytes8,
        exec .out s = .next { s with tagreg := e, v := none, phase := 0x7 } ∧
        ∀ j < 8, e.toList[j]? = some ((x >>> (8 * j)).setWidth 8))

/-- R186: CMP writes the verdict, 1 exactly when `tag_len` is 8 and all eight bytes agree, and nothing but it. -/
def Obligations.CmpWritesTheVerdict : Prop :=
  ∀ (s : State) (l : Latched), s.latched = some l →
    ∃ verdict : Bool,
      (verdict = true ↔ l.tagLen = 8 ∧ ∀ j < 8, s.tagreg.toList[j]? = some (s.tag.read j)) ∧
      exec .cmp s = .next { s with status := { s.status with result := verdict }, phase := 0x8 }

/-- R188, R109: ZER zeroes TAGREG whatever the verdict, which it keeps, and ends the command. -/
def Obligations.ZerZeroesAndEnds : Prop :=
  ∀ s : State, ∃ t : State, exec .zer s = .next t ∧
    t = { s with
      tagreg := ⟨0, 0, 0, 0, 0, 0, 0, 0⟩, v := none, widx := none
      status := { s.status with busy := false, done := true }, phase := 0x0 } ∧
    dbgTagreg t = 0

/-- Derived (R15, R54, R55; which stop comes first: log entry 17): where a uop runs outside the command that leads to it, it stops by name. -/
def Obligations.UopsStopWithoutTheirOperands : Prop :=
  (∀ s : State, s.latched = none →
    exec .chk s = .fault (.readUnspec .descriptor) ∧ exec .init s = .fault (.readUnspec .descriptor) ∧
    exec .cmpr s = .fault (.readUnspec .descriptor) ∧ exec .tail s = .fault (.readUnspec .descriptor) ∧
    exec .out s = .fault (.readUnspec .descriptor) ∧ exec .cmp s = .fault (.readUnspec .descriptor)) ∧
  (∀ s : State, s.v = none → exec .fin s = .fault (.readUnspec .lanes)) ∧
  (∀ (s : State) (l : Latched), s.latched = some l → s.v = none → exec .out s = .fault (.readUnspec .lanes)) ∧
  (∀ (s : State) (l : Latched), s.latched = some l → l.keyLen < 16 →
    exec .init s = .refused .readOutsideBuffer) ∧
  (∀ (s : State) (l : Latched), s.latched = some l → s.widx = none →
    exec .cmpr s = .fault (.readUnspec .widx) ∧ exec .tail s = .fault (.readUnspec .widx)) ∧
  (∀ (s : State) (l : Latched) (w : Nat), s.latched = some l → s.widx = some w → s.v = none →
    exec .tail s = .fault (.readUnspec .lanes)) ∧
  (∀ (s : State) (l : Latched) (w : Nat), s.latched = some l → s.widx = some w → l.msgLen / 8 ≤ w →
    exec .cmpr s = .refused .readOutsideBuffer) ∧
  (∀ (s : State) (l : Latched) (w : Nat), s.latched = some l → s.widx = some w → w < l.msgLen / 8 → s.v = none →
    exec .cmpr s = .fault (.readUnspec .lanes)) ∧
  (∀ (s : State) (l : Latched) (v : Lanes), s.latched = some l → s.v = some v → l.op = .computeTag → l.tagLen ≠ 8 →
    exec .out s = .refused .writeNotDefined)

/-! ## Primitives -/

/-- R131, R133: addition drops the carry out of bit 63; XOR is bit by bit. -/
def Obligations.AddWrapsAndXorIsBitwise : Prop :=
  ∀ a b : Word,
    (add64 a b).toNat = (a.toNat + b.toNat) % 2 ^ 64 ∧
    ∀ i < 64, (xor64 a b).getLsbD i = (a.getLsbD i != b.getLsbD i)

/-- R132: a rotation moves bit `i` to bit `(i + n) mod 64`, and by 32 it exchanges the halves. -/
def Obligations.RotationMovesEachBit : Prop :=
  ∀ a : Word,
    (∀ n i, 0 < n → n < 64 → i < 64 → (rotl64 a n).getLsbD ((i + n) % 64) = a.getLsbD i) ∧
    (rotl64 a 32).toNat = a.toNat % 2 ^ 32 * 2 ^ 32 + a.toNat / 2 ^ 32

/-- R137: the two half-rounds in a row are the flat list of fourteen operations. -/
def Obligations.RoundIsTheFlatList : Prop :=
  ∀ v : Lanes, sipRound v = sipRoundFlat v

/-- R138: the round is a bijection, and so is every number of rounds. -/
def Obligations.RoundsAreBijective : Prop :=
  Function.Bijective sipRound ∧ ∀ n, Function.Bijective (sipRounds n)

/-- R13, R174: splitting a word into bytes and assembling eight bytes undo each other. -/
def Obligations.LittleEndianRoundTrip : Prop :=
  (∀ t : Word, le64 (enc t).toList = t) ∧
  (∀ e : Bytes8, enc (le64 e.toList) = e)

/-- R161: the fields of the tail word, and every bit between them zero. -/
def Obligations.PackPlacesItsFields : Prop :=
  ∀ (s : List Byte) (L : Nat), s.length = L % 8 →
    (pack s L).toNat / 2 ^ 56 = L % 256 ∧
    (∀ (j : Nat) (b : Byte), s[j]? = some b → (pack s L).toNat / 2 ^ (8 * j) % 2 ^ 8 = b.toNat) ∧
    (∀ j, s.length ≤ j → j < 7 → (pack s L).toNat / 2 ^ (8 * j) % 2 ^ 8 = 0)

/-- R162: the tail word is the leftover bytes, zero bytes up to seven, and the length byte, read as a little-endian
word. -/
def Obligations.PackIsLittleEndianWord : Prop :=
  ∀ (s : List Byte) (L : Nat), s.length = L % 8 →
    pack s L = le64 (s ++ List.replicate (7 - s.length) 0x00 ++ [BitVec.ofNat 8 (L % 256)])

/-! ## Memory -/

/-- R54: MemRead inside the buffer gives the bytes, lowest address first; outside it is refused. -/
def Obligations.MemReadInsideItsBuffer : Prop :=
  ∀ (s : State) (l : Latched) (sp : Space) (a n : Nat), s.latched = some l →
    (a + n ≤ l.len sp → ∃ bs, memRead sp a n s = .ok bs ∧ bs.length = n ∧
      ∀ j < n, bs[j]? = some ((s.buffer sp).read (a + j))) ∧
    (l.len sp < a + n → memRead sp a n s = .error (.refused .readOutsideBuffer))

/-- R55: the one write MemWrite makes, byte by byte, and the refusal of every other. -/
def Obligations.MemWriteIsTheTagOnly : Prop :=
  ∀ (s : State) (l : Latched) (sp : Space) (a n : Nat) (bs : List Byte), s.latched = some l → s.tag.wf = true →
    (sp = .tag ∧ a = 0 ∧ n = 8 ∧ bs.length = 8 ∧ l.tagLen = 8 ∧ l.op = .computeTag →
      ∃ tag' : Buffer, memWrite sp a n bs s = .ok { s with tag := tag' } ∧ tag'.size = s.tag.size ∧
        (∀ j < 8, bs[j]? = some (tag'.read j)) ∧ (∀ x, 8 ≤ x → tag'.read x = s.tag.read x)) ∧
    (¬ (sp = .tag ∧ a = 0 ∧ n = 8 ∧ bs.length = 8 ∧ l.tagLen = 8 ∧ l.op = .computeTag) →
      memWrite sp a n bs s = .error (.refused .writeNotDefined))

/-- R35, R36, R37, R55: no instruction writes KEY or MSG, and only OUT of a COMPUTE_TAG writes TAG; of a buffer's bytes
only TAG[0..7] can change. -/
def Obligations.EngineWritesOnlyTheTag : Prop :=
  ∀ (i : Instr) (s t : State), exec i s = .next t → s.tag.wf = true →
    t.key = s.key ∧ t.msg = s.msg ∧ t.tag.size = s.tag.size ∧ (∀ a, 8 ≤ a → t.tag.read a = s.tag.read a) ∧
    (t.tag ≠ s.tag → i = .out ∧ s.latched.map Latched.op = some .computeTag)

/-! ## Registers and sequencing -/

/-- R28: no uop writes the descriptor registers, and a command writes all four. -/
def Obligations.DescriptorRegistersHaveOneWriter : Prop :=
  ∀ (i : Instr) (s t : State), exec i s = .next t →
    match i with
    | .computeTag k l m => t.latched = some ⟨.computeTag, k, l, m⟩
    | .verifyTag k l m => t.latched = some ⟨.verifyTag, k, l, m⟩
    | _ => t.latched = s.latched

/-- R29: the writers of STATUS, field by field, for every instruction that completes. -/
def Obligations.StatusHasItsWriters : Prop :=
  ∀ (i : Instr) (s t : State), exec i s = .next t →
    match i with
    | .computeTag _ _ _ => t.status = ⟨true, false, 0, false⟩
    | .verifyTag _ _ _ => t.status = ⟨true, false, 0, false⟩
    | .chk => t.status = s.status ∨
        (t.status.busy = false ∧ t.status.done = true ∧ (t.status.err = 1 ∨ t.status.err = 2) ∧ t.status.result = false)
    | .out => if s.latched.map Latched.op = some .computeTag
        then t.status = { s.status with busy := false, done := true } else t.status = s.status
    | .cmp => ∃ r, t.status = { s.status with result := r }
    | .zer => t.status = { s.status with busy := false, done := true }
    | .idle => t.status = s.status
    | .init => t.status = s.status
    | .cmpr => t.status = s.status
    | .tail => t.status = s.status
    | .fin => t.status = s.status

/-- R29: the places of the fields in the word the host reads, and the reserved bits zero. -/
def Obligations.StatusWordLayout : Prop :=
  ∀ s : State,
    (readStatus s).getLsbD 0 = s.status.busy ∧ (readStatus s).getLsbD 1 = s.status.done ∧
    (readStatus s).toNat / 4 % 4 = s.status.err.toNat ∧ (readStatus s).getLsbD 4 = s.status.result ∧
    (readStatus s).toNat / 32 = 0

/-- R104: the successor of every command and uop that completes; where the command ends, it has ended as R109 says. -/
def Obligations.SuccessorOfEachUop : Prop :=
  ∀ (i : Instr) (s t : State), exec i s = .next t →
    match i with
    | .computeTag _ _ _ => t.phase = 0x1
    | .verifyTag _ _ _ => t.phase = 0x1
    | .idle => t.phase = 0x0
    | .chk => ∃ l, s.latched = some l ∧
        if l.keyLen = 16 ∧ (l.op = .computeTag → l.tagLen = 8) then t.phase = 0x2
        else CommandEnded t ∧ (t.status.err = 1 ∨ t.status.err = 2)
    | .init => ∃ l, s.latched = some l ∧ t.widx = some 0 ∧ t.phase = if 0 < l.msgLen / 8 then 0x3 else 0x4
    | .cmpr => ∃ l w, s.latched = some l ∧ s.widx = some w ∧ t.widx = some (w + 1) ∧
        t.phase = if w + 1 < l.msgLen / 8 then 0x3 else 0x4
    | .tail => t.phase = 0x5
    | .fin => t.phase = 0x6
    | .out => ∃ l, s.latched = some l ∧ if l.op = .computeTag then CommandEnded t else t.phase = 0x7
    | .cmp => t.phase = 0x8
    | .zer => CommandEnded t

/-! ## Reset and the outside world -/

/-- R40: the state after reset. -/
def Obligations.ResetLeavesRegisters : Prop :=
  State.reset.phase = 0x0 ∧ readStatus State.reset = 0x00 ∧ readErrinfo State.reset = 0x0000 ∧
  State.reset.tagreg = ⟨0, 0, 0, 0, 0, 0, 0, 0⟩ ∧ State.reset.v = none ∧ State.reset.widx = none ∧
  State.reset.latched = none

/-- Derived (R231, R233, R40): a reset puts every register of the engine at its reset value in whatever state it comes,
leaves KEY and MSG, and TAG but for the eight bytes of an abandoned COMPUTE_TAG's tag; of those nothing is said (log entry 9).
The model's choices: that a reset in IDLE also leaves the descriptor registers without a value (log entry 21: R231 against
R232), and that the reset is one of the host's moves and leaves the rest of them (log entry 7). -/
def Obligations.ResetEventFromAnyState : Prop :=
  ∀ (s : State) (rest : List HostMove), s.pending = .reset :: rest → s.tag.wf = true →
    ∃ t, step s = .next t ∧
      t.phase = 0x0 ∧ t.status = ⟨false, false, 0, false⟩ ∧ t.errinfo = 0 ∧ t.tagreg = ⟨0, 0, 0, 0, 0, 0, 0, 0⟩ ∧
      t.v = none ∧ t.widx = none ∧ t.latched = none ∧ t.pending = rest ∧
      t.key = s.key ∧ t.msg = s.msg ∧ t.tag.size = s.tag.size ∧
      (∀ a, 8 ≤ a → t.tag.read a = s.tag.read a) ∧
      (¬ (s.status.busy = true ∧ s.latched.map Latched.op = some .computeTag) → t.tag = s.tag)

/-- R240, R62: while a command runs the host's accesses to the buffers have no meaning. -/
def Obligations.HostAccessWhileBusyRefused : Prop :=
  ∀ (s : State) (rest : List HostMove), s.status.busy = true →
    (∀ sp bytes, s.pending = .provide sp bytes :: rest → step s = .refused .hostAccessWhileBusy) ∧
    (∀ sp a b, s.pending = .writeByte sp a b :: rest → step s = .refused .hostAccessWhileBusy) ∧
    (∀ a, s.pending = .readTag a :: rest → step s = .refused .hostAccessWhileBusy)

/-- Derived (R34, R234): a buffer the host provides is as long as its bytes and holds them, and nothing else of the state
changes but that the move is made; a byte it writes is read back and no other byte changes. -/
def Obligations.HostProvidesAndWritesBuffers : Prop :=
  ∀ (s : State) (rest : List HostMove) (sp : Space), s.status.busy = false →
    (∀ bytes, s.pending = .provide sp bytes :: rest →
      ∃ b : Buffer, step s = .next (({ s with pending := rest } : State).setBuffer sp b) ∧
        b.size = bytes.length ∧ b.wf = true ∧ ∀ j x, bytes[j]? = some x → b.read j = x) ∧
    (∀ a x, s.pending = .writeByte sp a x :: rest → a < (s.buffer sp).size → (s.buffer sp).wf = true →
      ∃ b : Buffer, step s = .next (({ s with pending := rest } : State).setBuffer sp b) ∧
        b.size = (s.buffer sp).size ∧ b.wf = true ∧ b.read a = x ∧ ∀ c, c ≠ a → b.read c = (s.buffer sp).read c)

/-! ## The whole machine -/

/-- The invariant holds after reset. -/
def Obligations.ResetMeetsInvariant : Prop := EngineInv State.reset

/-- Every step keeps the invariant: uops, commands, host moves and resets. -/
def Obligations.StepKeepsInvariant : Prop :=
  ∀ s t : State, EngineInv s → step s = .next t → EngineInv t

/-- From every state that meets the invariant the engine steps, and no step of any kind is a fault. -/
def Obligations.EngineNeverStops : Prop :=
  ∀ s : State, EngineInv s →
    (s.pending = [] → ∃ t, step s = .next t) ∧ (∀ f, step s ≠ .fault f)

/-- R113: from reset, whatever the host does next, no uop reads a register that is UNSPEC (no run faults), and `phase`
holds no reserved value. -/
def Obligations.NoUnspecReadFromReset : Prop :=
  ∀ (moves : List HostMove) (k : Nat),
    (∀ f, Host.Core.run Sys2Proof.core k { State.reset with pending := moves } ≠ .fault f) ∧
    (∀ t : State, Host.Core.run Sys2Proof.core k { State.reset with pending := moves } = .next t → t.phase.toNat ≤ 8)

/-- R33: whenever `phase` is IDLE, TAGREG is zero, whatever the host did since reset. -/
def Obligations.TagregZeroWheneverIdle : Prop :=
  ∀ (moves : List HostMove) (k : Nat) (t : State),
    Host.Core.run Sys2Proof.core k { State.reset with pending := moves } = .next t → t.phase = 0x0 →
    t.tagreg = ⟨0, 0, 0, 0, 0, 0, 0, 0⟩ ∧ dbgTagreg t = 0

/-- R30: whatever the host did since reset, ERRINFO is the function of STATUS.err the rule gives, and no other code of
STATUS.err is ever written (R29). -/
def Obligations.ErrinfoIsFunctionOfErr : Prop :=
  ∀ (moves : List HostMove) (k : Nat) (t : State),
    Host.Core.run Sys2Proof.core k { State.reset with pending := moves } = .next t →
    (t.status.err = 0 ∧ readErrinfo t = 0x0000) ∨ (t.status.err = 1 ∧ readErrinfo t = 0x0110) ∨
      (t.status.err = 2 ∧ readErrinfo t = 0x0208)

/-- R105: the uops a command executes, in order, are a function of its descriptor alone, and the command ends after
them. -/
def Obligations.UopSequenceOfDescriptor : Prop :=
  ∀ (s : State) (l : Latched), EngineInv s → s.pending = [] → s.phase = 0x1 → s.latched = some l →
    phaseTrace (uopSequence l).length s = uopSequence l ∧
    (∃ t : State, Host.Core.run Sys2Proof.core (uopSequence l).length s = .next t ∧
      t.phase = 0x0 ∧ t.status.busy = false ∧ t.status.done = true) ∧
    (uopSequence l).length =
      (if l.keyLen = 16 then
        (match l.op with
        | .computeTag => if l.tagLen = 8 then l.msgLen / 8 + 5 else 1
        | .verifyTag => l.msgLen / 8 + 7)
       else 1)

/-- R110: a COMPUTE_TAG with the right lengths ends with the closed form's tag in TAG[0..7], STATUS 0x02, no error and no
other buffer byte changed. -/
def Obligations.ComputeTagGivesClosedForm : Prop :=
  ∀ (s : State) (L : Nat), s.status.busy = false → s.pending = [.writeDesc ⟨0x00, 16, 8, L⟩] →
    16 ≤ s.key.size → 8 ≤ s.tag.size → L ≤ s.msg.size → s.tag.wf = true →
    ∃ t : State, Host.Core.run Sys2Proof.core (L / 8 + 6) s = .next t ∧
      (∀ j < 8, (sipHash24 (s.key.bytes 16) (s.msg.bytes L)).toList[j]? = some (t.tag.read j)) ∧
      (∀ a, 8 ≤ a → t.tag.read a = s.tag.read a) ∧ t.key = s.key ∧ t.msg = s.msg ∧ t.tagreg = s.tagreg ∧
      readStatus t = 0x02 ∧ readErrinfo t = 0x0000 ∧ t.phase = 0x0 ∧ t.v = none ∧ t.widx = none

/-- R111: a VERIFY_TAG with the right key length ends without error with the verdict of the closed form, whatever the tag
length; no buffer is changed and TAGREG is zero. -/
def Obligations.VerifyTagGivesVerdict : Prop :=
  ∀ (s : State) (T L : Nat), s.status.busy = false → s.pending = [.writeDesc ⟨0x01, 16, T, L⟩] →
    16 ≤ s.key.size → T ≤ s.tag.size → L ≤ s.msg.size →
    ∃ t : State, Host.Core.run Sys2Proof.core (L / 8 + 8) s = .next t ∧
      readStatus t =
        (if T = 8 ∧ s.tag.bytes 8 = (sipHash24 (s.key.bytes 16) (s.msg.bytes L)).toList then 0x12 else 0x02) ∧
      readErrinfo t = 0x0000 ∧ t.key = s.key ∧ t.msg = s.msg ∧ t.tag = s.tag ∧
      t.tagreg = ⟨0, 0, 0, 0, 0, 0, 0, 0⟩ ∧ t.phase = 0x0 ∧ t.v = none ∧ t.widx = none

/-- Derived (R115): what a command shows the outside world, at every step after its START, does not depend on what earlier
commands left in the engine. -/
def Obligations.EarlierCommandsDoNotMatter : Prop :=
  ∀ (s s' t : State) (d : Descriptor) (k : Nat), EngineInv s → EngineInv s' →
    s.phase = 0x0 → s'.phase = 0x0 → s.pending = [.writeDesc d] → s'.pending = [.writeDesc d] →
    s.key = s'.key → s.msg = s'.msg → s.tag = s'.tag →
    Host.Core.run Sys2Proof.core (k + 1) s = .next t →
    ∃ t' : State, Host.Core.run Sys2Proof.core (k + 1) s' = .next t' ∧ t'.view = t.view
end

