-- ==== Sys2Proof/Laws/State.lean ====
section
/-! SUPPORT. One lemma for each field and each update of the state, and for the shared operations that write it
(`raise`, `endCommand`, `resetEvent`), so that no later proof unfolds a record update. -/

namespace Sys2Proof.Machine

@[simp] theorem State.setLanes_v (s : State) (x : Option Lanes) : (s.setLanes x).v = x := rfl
@[simp] theorem State.setLanes_phase (s : State) (x : Option Lanes) : (s.setLanes x).phase = s.phase := rfl
@[simp] theorem State.setLanes_widx (s : State) (x : Option Lanes) : (s.setLanes x).widx = s.widx := rfl
@[simp] theorem State.setLanes_latched (s : State) (x : Option Lanes) : (s.setLanes x).latched = s.latched := rfl
@[simp] theorem State.setLanes_status (s : State) (x : Option Lanes) : (s.setLanes x).status = s.status := rfl
@[simp] theorem State.setLanes_errinfo (s : State) (x : Option Lanes) : (s.setLanes x).errinfo = s.errinfo := rfl
@[simp] theorem State.setLanes_tagreg (s : State) (x : Option Lanes) : (s.setLanes x).tagreg = s.tagreg := rfl
@[simp] theorem State.setLanes_key (s : State) (x : Option Lanes) : (s.setLanes x).key = s.key := rfl
@[simp] theorem State.setLanes_msg (s : State) (x : Option Lanes) : (s.setLanes x).msg = s.msg := rfl
@[simp] theorem State.setLanes_tag (s : State) (x : Option Lanes) : (s.setLanes x).tag = s.tag := rfl
@[simp] theorem State.setLanes_pending (s : State) (x : Option Lanes) : (s.setLanes x).pending = s.pending := rfl
@[simp] theorem State.setLanes_freeCount (s : State) (x : Option Lanes) : (s.setLanes x).freeCount = s.freeCount := rfl

@[simp] theorem State.setPhase_v (s : State) (x : BitVec 4) : (s.setPhase x).v = s.v := rfl
@[simp] theorem State.setPhase_phase (s : State) (x : BitVec 4) : (s.setPhase x).phase = x := rfl
@[simp] theorem State.setPhase_widx (s : State) (x : BitVec 4) : (s.setPhase x).widx = s.widx := rfl
@[simp] theorem State.setPhase_latched (s : State) (x : BitVec 4) : (s.setPhase x).latched = s.latched := rfl
@[simp] theorem State.setPhase_status (s : State) (x : BitVec 4) : (s.setPhase x).status = s.status := rfl
@[simp] theorem State.setPhase_errinfo (s : State) (x : BitVec 4) : (s.setPhase x).errinfo = s.errinfo := rfl
@[simp] theorem State.setPhase_tagreg (s : State) (x : BitVec 4) : (s.setPhase x).tagreg = s.tagreg := rfl
@[simp] theorem State.setPhase_key (s : State) (x : BitVec 4) : (s.setPhase x).key = s.key := rfl
@[simp] theorem State.setPhase_msg (s : State) (x : BitVec 4) : (s.setPhase x).msg = s.msg := rfl
@[simp] theorem State.setPhase_tag (s : State) (x : BitVec 4) : (s.setPhase x).tag = s.tag := rfl
@[simp] theorem State.setPhase_pending (s : State) (x : BitVec 4) : (s.setPhase x).pending = s.pending := rfl
@[simp] theorem State.setPhase_freeCount (s : State) (x : BitVec 4) : (s.setPhase x).freeCount = s.freeCount := rfl

@[simp] theorem State.setWidx_v (s : State) (x : Option Nat) : (s.setWidx x).v = s.v := rfl
@[simp] theorem State.setWidx_phase (s : State) (x : Option Nat) : (s.setWidx x).phase = s.phase := rfl
@[simp] theorem State.setWidx_widx (s : State) (x : Option Nat) : (s.setWidx x).widx = x := rfl
@[simp] theorem State.setWidx_latched (s : State) (x : Option Nat) : (s.setWidx x).latched = s.latched := rfl
@[simp] theorem State.setWidx_status (s : State) (x : Option Nat) : (s.setWidx x).status = s.status := rfl
@[simp] theorem State.setWidx_errinfo (s : State) (x : Option Nat) : (s.setWidx x).errinfo = s.errinfo := rfl
@[simp] theorem State.setWidx_tagreg (s : State) (x : Option Nat) : (s.setWidx x).tagreg = s.tagreg := rfl
@[simp] theorem State.setWidx_key (s : State) (x : Option Nat) : (s.setWidx x).key = s.key := rfl
@[simp] theorem State.setWidx_msg (s : State) (x : Option Nat) : (s.setWidx x).msg = s.msg := rfl
@[simp] theorem State.setWidx_tag (s : State) (x : Option Nat) : (s.setWidx x).tag = s.tag := rfl
@[simp] theorem State.setWidx_pending (s : State) (x : Option Nat) : (s.setWidx x).pending = s.pending := rfl
@[simp] theorem State.setWidx_freeCount (s : State) (x : Option Nat) : (s.setWidx x).freeCount = s.freeCount := rfl

@[simp] theorem State.setLatched_v (s : State) (x : Option Latched) : (s.setLatched x).v = s.v := rfl
@[simp] theorem State.setLatched_phase (s : State) (x : Option Latched) : (s.setLatched x).phase = s.phase := rfl
@[simp] theorem State.setLatched_widx (s : State) (x : Option Latched) : (s.setLatched x).widx = s.widx := rfl
@[simp] theorem State.setLatched_latched (s : State) (x : Option Latched) : (s.setLatched x).latched = x := rfl
@[simp] theorem State.setLatched_status (s : State) (x : Option Latched) : (s.setLatched x).status = s.status := rfl
@[simp] theorem State.setLatched_errinfo (s : State) (x : Option Latched) : (s.setLatched x).errinfo = s.errinfo := rfl
@[simp] theorem State.setLatched_tagreg (s : State) (x : Option Latched) : (s.setLatched x).tagreg = s.tagreg := rfl
@[simp] theorem State.setLatched_key (s : State) (x : Option Latched) : (s.setLatched x).key = s.key := rfl
@[simp] theorem State.setLatched_msg (s : State) (x : Option Latched) : (s.setLatched x).msg = s.msg := rfl
@[simp] theorem State.setLatched_tag (s : State) (x : Option Latched) : (s.setLatched x).tag = s.tag := rfl
@[simp] theorem State.setLatched_pending (s : State) (x : Option Latched) : (s.setLatched x).pending = s.pending := rfl
@[simp] theorem State.setLatched_freeCount (s : State) (x : Option Latched) : (s.setLatched x).freeCount = s.freeCount := rfl

@[simp] theorem State.setStatus_v (s : State) (x : Status) : (s.setStatus x).v = s.v := rfl
@[simp] theorem State.setStatus_phase (s : State) (x : Status) : (s.setStatus x).phase = s.phase := rfl
@[simp] theorem State.setStatus_widx (s : State) (x : Status) : (s.setStatus x).widx = s.widx := rfl
@[simp] theorem State.setStatus_latched (s : State) (x : Status) : (s.setStatus x).latched = s.latched := rfl
@[simp] theorem State.setStatus_status (s : State) (x : Status) : (s.setStatus x).status = x := rfl
@[simp] theorem State.setStatus_errinfo (s : State) (x : Status) : (s.setStatus x).errinfo = s.errinfo := rfl
@[simp] theorem State.setStatus_tagreg (s : State) (x : Status) : (s.setStatus x).tagreg = s.tagreg := rfl
@[simp] theorem State.setStatus_key (s : State) (x : Status) : (s.setStatus x).key = s.key := rfl
@[simp] theorem State.setStatus_msg (s : State) (x : Status) : (s.setStatus x).msg = s.msg := rfl
@[simp] theorem State.setStatus_tag (s : State) (x : Status) : (s.setStatus x).tag = s.tag := rfl
@[simp] theorem State.setStatus_pending (s : State) (x : Status) : (s.setStatus x).pending = s.pending := rfl
@[simp] theorem State.setStatus_freeCount (s : State) (x : Status) : (s.setStatus x).freeCount = s.freeCount := rfl

@[simp] theorem State.setErrinfo_v (s : State) (x : BitVec 16) : (s.setErrinfo x).v = s.v := rfl
@[simp] theorem State.setErrinfo_phase (s : State) (x : BitVec 16) : (s.setErrinfo x).phase = s.phase := rfl
@[simp] theorem State.setErrinfo_widx (s : State) (x : BitVec 16) : (s.setErrinfo x).widx = s.widx := rfl
@[simp] theorem State.setErrinfo_latched (s : State) (x : BitVec 16) : (s.setErrinfo x).latched = s.latched := rfl
@[simp] theorem State.setErrinfo_status (s : State) (x : BitVec 16) : (s.setErrinfo x).status = s.status := rfl
@[simp] theorem State.setErrinfo_errinfo (s : State) (x : BitVec 16) : (s.setErrinfo x).errinfo = x := rfl
@[simp] theorem State.setErrinfo_tagreg (s : State) (x : BitVec 16) : (s.setErrinfo x).tagreg = s.tagreg := rfl
@[simp] theorem State.setErrinfo_key (s : State) (x : BitVec 16) : (s.setErrinfo x).key = s.key := rfl
@[simp] theorem State.setErrinfo_msg (s : State) (x : BitVec 16) : (s.setErrinfo x).msg = s.msg := rfl
@[simp] theorem State.setErrinfo_tag (s : State) (x : BitVec 16) : (s.setErrinfo x).tag = s.tag := rfl
@[simp] theorem State.setErrinfo_pending (s : State) (x : BitVec 16) : (s.setErrinfo x).pending = s.pending := rfl
@[simp] theorem State.setErrinfo_freeCount (s : State) (x : BitVec 16) : (s.setErrinfo x).freeCount = s.freeCount := rfl

@[simp] theorem State.setTagreg_v (s : State) (x : Bytes8) : (s.setTagreg x).v = s.v := rfl
@[simp] theorem State.setTagreg_phase (s : State) (x : Bytes8) : (s.setTagreg x).phase = s.phase := rfl
@[simp] theorem State.setTagreg_widx (s : State) (x : Bytes8) : (s.setTagreg x).widx = s.widx := rfl
@[simp] theorem State.setTagreg_latched (s : State) (x : Bytes8) : (s.setTagreg x).latched = s.latched := rfl
@[simp] theorem State.setTagreg_status (s : State) (x : Bytes8) : (s.setTagreg x).status = s.status := rfl
@[simp] theorem State.setTagreg_errinfo (s : State) (x : Bytes8) : (s.setTagreg x).errinfo = s.errinfo := rfl
@[simp] theorem State.setTagreg_tagreg (s : State) (x : Bytes8) : (s.setTagreg x).tagreg = x := rfl
@[simp] theorem State.setTagreg_key (s : State) (x : Bytes8) : (s.setTagreg x).key = s.key := rfl
@[simp] theorem State.setTagreg_msg (s : State) (x : Bytes8) : (s.setTagreg x).msg = s.msg := rfl
@[simp] theorem State.setTagreg_tag (s : State) (x : Bytes8) : (s.setTagreg x).tag = s.tag := rfl
@[simp] theorem State.setTagreg_pending (s : State) (x : Bytes8) : (s.setTagreg x).pending = s.pending := rfl
@[simp] theorem State.setTagreg_freeCount (s : State) (x : Bytes8) : (s.setTagreg x).freeCount = s.freeCount := rfl

@[simp] theorem State.setTag_v (s : State) (x : Buffer) : (s.setTag x).v = s.v := rfl
@[simp] theorem State.setTag_phase (s : State) (x : Buffer) : (s.setTag x).phase = s.phase := rfl
@[simp] theorem State.setTag_widx (s : State) (x : Buffer) : (s.setTag x).widx = s.widx := rfl
@[simp] theorem State.setTag_latched (s : State) (x : Buffer) : (s.setTag x).latched = s.latched := rfl
@[simp] theorem State.setTag_status (s : State) (x : Buffer) : (s.setTag x).status = s.status := rfl
@[simp] theorem State.setTag_errinfo (s : State) (x : Buffer) : (s.setTag x).errinfo = s.errinfo := rfl
@[simp] theorem State.setTag_tagreg (s : State) (x : Buffer) : (s.setTag x).tagreg = s.tagreg := rfl
@[simp] theorem State.setTag_key (s : State) (x : Buffer) : (s.setTag x).key = s.key := rfl
@[simp] theorem State.setTag_msg (s : State) (x : Buffer) : (s.setTag x).msg = s.msg := rfl
@[simp] theorem State.setTag_tag (s : State) (x : Buffer) : (s.setTag x).tag = x := rfl
@[simp] theorem State.setTag_pending (s : State) (x : Buffer) : (s.setTag x).pending = s.pending := rfl
@[simp] theorem State.setTag_freeCount (s : State) (x : Buffer) : (s.setTag x).freeCount = s.freeCount := rfl

@[simp] theorem State.setPending_v (s : State) (x : List HostMove) : (s.setPending x).v = s.v := rfl
@[simp] theorem State.setPending_phase (s : State) (x : List HostMove) : (s.setPending x).phase = s.phase := rfl
@[simp] theorem State.setPending_widx (s : State) (x : List HostMove) : (s.setPending x).widx = s.widx := rfl
@[simp] theorem State.setPending_latched (s : State) (x : List HostMove) : (s.setPending x).latched = s.latched := rfl
@[simp] theorem State.setPending_status (s : State) (x : List HostMove) : (s.setPending x).status = s.status := rfl
@[simp] theorem State.setPending_errinfo (s : State) (x : List HostMove) : (s.setPending x).errinfo = s.errinfo := rfl
@[simp] theorem State.setPending_tagreg (s : State) (x : List HostMove) : (s.setPending x).tagreg = s.tagreg := rfl
@[simp] theorem State.setPending_key (s : State) (x : List HostMove) : (s.setPending x).key = s.key := rfl
@[simp] theorem State.setPending_msg (s : State) (x : List HostMove) : (s.setPending x).msg = s.msg := rfl
@[simp] theorem State.setPending_tag (s : State) (x : List HostMove) : (s.setPending x).tag = s.tag := rfl
@[simp] theorem State.setPending_pending (s : State) (x : List HostMove) : (s.setPending x).pending = x := rfl
@[simp] theorem State.setPending_freeCount (s : State) (x : List HostMove) : (s.setPending x).freeCount = s.freeCount := rfl

@[simp] theorem endCommand_v (s : State) : (endCommand s).v = none := rfl
@[simp] theorem endCommand_phase (s : State) : (endCommand s).phase = phaseIdle := rfl
@[simp] theorem endCommand_widx (s : State) : (endCommand s).widx = none := rfl
@[simp] theorem endCommand_latched (s : State) : (endCommand s).latched = s.latched := rfl
@[simp] theorem endCommand_status (s : State) : (endCommand s).status = s.status.ended := rfl
@[simp] theorem endCommand_errinfo (s : State) : (endCommand s).errinfo = s.errinfo := rfl
@[simp] theorem endCommand_tagreg (s : State) : (endCommand s).tagreg = s.tagreg := rfl
@[simp] theorem endCommand_key (s : State) : (endCommand s).key = s.key := rfl
@[simp] theorem endCommand_msg (s : State) : (endCommand s).msg = s.msg := rfl
@[simp] theorem endCommand_tag (s : State) : (endCommand s).tag = s.tag := rfl
@[simp] theorem endCommand_pending (s : State) : (endCommand s).pending = s.pending := rfl
@[simp] theorem endCommand_freeCount (s : State) : (endCommand s).freeCount = s.freeCount := rfl

@[simp] theorem raise_v (e : Err) (s : State) : (raise e s).v = none := rfl
@[simp] theorem raise_phase (e : Err) (s : State) : (raise e s).phase = phaseIdle := rfl
@[simp] theorem raise_widx (e : Err) (s : State) : (raise e s).widx = none := rfl
@[simp] theorem raise_latched (e : Err) (s : State) : (raise e s).latched = s.latched := rfl
@[simp] theorem raise_status (e : Err) (s : State) : (raise e s).status = Status.raised e := rfl
@[simp] theorem raise_errinfo (e : Err) (s : State) : (raise e s).errinfo = e.info := rfl
@[simp] theorem raise_tagreg (e : Err) (s : State) : (raise e s).tagreg = s.tagreg := rfl
@[simp] theorem raise_key (e : Err) (s : State) : (raise e s).key = s.key := rfl
@[simp] theorem raise_msg (e : Err) (s : State) : (raise e s).msg = s.msg := rfl
@[simp] theorem raise_tag (e : Err) (s : State) : (raise e s).tag = s.tag := rfl
@[simp] theorem raise_pending (e : Err) (s : State) : (raise e s).pending = s.pending := rfl
@[simp] theorem raise_freeCount (e : Err) (s : State) : (raise e s).freeCount = s.freeCount := rfl

@[simp] theorem resetEvent_v (s : State) : (resetEvent s).v = none := rfl
@[simp] theorem resetEvent_phase (s : State) : (resetEvent s).phase = 0x0 := rfl
@[simp] theorem resetEvent_widx (s : State) : (resetEvent s).widx = none := rfl
@[simp] theorem resetEvent_latched (s : State) : (resetEvent s).latched = none := rfl
@[simp] theorem resetEvent_status (s : State) : (resetEvent s).status = ⟨false, false, 0, false⟩ := rfl
@[simp] theorem resetEvent_errinfo (s : State) : (resetEvent s).errinfo = 0 := rfl
@[simp] theorem resetEvent_tagreg (s : State) : (resetEvent s).tagreg = Bytes8.zero := rfl
@[simp] theorem resetEvent_key (s : State) : (resetEvent s).key = s.key := rfl
@[simp] theorem resetEvent_msg (s : State) : (resetEvent s).msg = s.msg := rfl
@[simp] theorem resetEvent_tag (s : State) : (resetEvent s).tag = tagAfterReset s := rfl
@[simp] theorem resetEvent_pending (s : State) : (resetEvent s).pending = s.pending := rfl
@[simp] theorem resetEvent_freeCount (s : State) : (resetEvent s).freeCount = if computing s then s.freeCount + tornBytes s else s.freeCount := rfl

@[simp] theorem Status.ended_busy (st : Status) : st.ended.busy = false := rfl
@[simp] theorem Status.ended_done (st : Status) : st.ended.done = true := rfl
@[simp] theorem Status.ended_err (st : Status) : st.ended.err = st.err := rfl
@[simp] theorem Status.ended_result (st : Status) : st.ended.result = st.result := rfl
@[simp] theorem Status.raised_busy (e : Err) : (Status.raised e).busy = false := rfl
@[simp] theorem Status.raised_done (e : Err) : (Status.raised e).done = true := rfl
@[simp] theorem Status.raised_err (e : Err) : (Status.raised e).err = e.code := rfl
@[simp] theorem Status.raised_result (e : Err) : (Status.raised e).result = false := rfl
@[simp] theorem Status.withResult_busy (st : Status) (r : Bool) : (st.withResult r).busy = st.busy := rfl
@[simp] theorem Status.withResult_done (st : Status) (r : Bool) : (st.withResult r).done = st.done := rfl
@[simp] theorem Status.withResult_err (st : Status) (r : Bool) : (st.withResult r).err = st.err := rfl
@[simp] theorem Status.withResult_result (st : Status) (r : Bool) : (st.withResult r).result = r := rfl

@[simp] theorem State.setBuffer_v (s : State) (sp : Space) (x : Buffer) : (s.setBuffer sp x).v = s.v := by
  cases sp <;> rfl
@[simp] theorem State.setBuffer_phase (s : State) (sp : Space) (x : Buffer) : (s.setBuffer sp x).phase = s.phase := by
  cases sp <;> rfl
@[simp] theorem State.setBuffer_widx (s : State) (sp : Space) (x : Buffer) : (s.setBuffer sp x).widx = s.widx := by
  cases sp <;> rfl
@[simp] theorem State.setBuffer_latched (s : State) (sp : Space) (x : Buffer) : (s.setBuffer sp x).latched = s.latched := by
  cases sp <;> rfl
@[simp] theorem State.setBuffer_status (s : State) (sp : Space) (x : Buffer) : (s.setBuffer sp x).status = s.status := by
  cases sp <;> rfl
@[simp] theorem State.setBuffer_errinfo (s : State) (sp : Space) (x : Buffer) : (s.setBuffer sp x).errinfo = s.errinfo := by
  cases sp <;> rfl
@[simp] theorem State.setBuffer_tagreg (s : State) (sp : Space) (x : Buffer) : (s.setBuffer sp x).tagreg = s.tagreg := by
  cases sp <;> rfl
@[simp] theorem State.setBuffer_pending (s : State) (sp : Space) (x : Buffer) : (s.setBuffer sp x).pending = s.pending := by
  cases sp <;> rfl
@[simp] theorem State.setBuffer_freeCount (s : State) (sp : Space) (x : Buffer) : (s.setBuffer sp x).freeCount = s.freeCount := by
  cases sp <;> rfl

@[simp] theorem State.buffer_setBuffer_same (s : State) (sp : Space) (x : Buffer) : (s.setBuffer sp x).buffer sp = x := by
  cases sp <;> rfl

theorem State.buffer_setBuffer_other (s : State) (sp sp' : Space) (x : Buffer) (h : sp' ≠ sp) :
    (s.setBuffer sp x).buffer sp' = s.buffer sp' := by
  cases sp <;> cases sp' <;> first | rfl | exact absurd rfl h

end Sys2Proof.Machine
end

