-- ==== Sys2Proof/Laws/Memory.lean ====
section
/-! SUPPORT. Laws of bytes by address: a read after a write, the frame of a write, and that every memory operation keeps
the canonical form. -/

namespace Sys2Proof.Machine

/-- Weakening the bounds of the canonical form. -/
theorem Memory.wfFrom_mono {hi lo lo' : Nat} (h : lo' ≤ lo) :
    ∀ {m : Memory}, Memory.wfFrom hi lo m = true → Memory.wfFrom hi lo' m = true
  | [], _ => rfl
  | (a, b) :: m, hm => by
    simp only [Memory.wfFrom, Bool.and_eq_true, decide_eq_true_eq] at hm ⊢
    exact ⟨⟨⟨Nat.le_trans h hm.1.1.1, hm.1.1.2⟩, hm.1.2⟩, hm.2⟩

/-- A larger top bound. -/
theorem Memory.wfFrom_hi {hi hi' : Nat} (h : hi ≤ hi') :
    ∀ {m : Memory} {lo : Nat}, Memory.wfFrom hi lo m = true → Memory.wfFrom hi' lo m = true
  | [], _, _ => rfl
  | (a, b) :: m, lo, hm => by
    simp only [Memory.wfFrom, Bool.and_eq_true, decide_eq_true_eq] at hm ⊢
    exact ⟨⟨⟨hm.1.1.1, Nat.lt_of_lt_of_le hm.1.1.2 h⟩, hm.1.2⟩, Memory.wfFrom_hi h hm.2⟩

/-- An address below the bound is not listed. -/
theorem Memory.read_below {hi : Nat} : ∀ {m : Memory} {lo a : Nat},
    Memory.wfFrom hi lo m = true → a < lo → m.read a = Config.unlistedByte
  | [], _, _, _, _ => rfl
  | (x, y) :: m, lo, a, hm, ha => by
    simp only [Memory.wfFrom, Bool.and_eq_true, decide_eq_true_eq] at hm
    have hne : a ≠ x := by omega
    simp only [Memory.read, if_neg hne]
    exact Memory.read_below hm.2 (by omega)

/-- An address at or above the top bound is not listed. -/
theorem Memory.read_above {hi : Nat} : ∀ {m : Memory} {lo a : Nat},
    Memory.wfFrom hi lo m = true → hi ≤ a → m.read a = Config.unlistedByte
  | [], _, _, _, _ => rfl
  | (x, y) :: m, lo, a, hm, ha => by
    simp only [Memory.wfFrom, Bool.and_eq_true, decide_eq_true_eq] at hm
    have hne : a ≠ x := by omega
    simp only [Memory.read, if_neg hne]
    exact Memory.read_above hm.2 ha

/-- What a read gives after a write, in canonical form. -/
theorem Memory.read_write {hi : Nat} : ∀ {m : Memory} {lo : Nat}, Memory.wfFrom hi lo m = true →
    ∀ (a : Nat) (b : Byte) (c : Nat), (m.write a b).read c = if c = a then b else m.read c
  | [], _, _, a, b, c => by
    by_cases hb : b = Config.unlistedByte
    · simp [Memory.write, Memory.read, hb]
    · simp [Memory.write, Memory.read, hb]
  | (x, y) :: m, lo, hm, a, b, c => by
    simp only [Memory.wfFrom, Bool.and_eq_true, decide_eq_true_eq] at hm
    have ih := Memory.read_write hm.2 a b c
    have hrest : ∀ d, d ≤ x → Memory.read m d = Config.unlistedByte := fun d hd => Memory.read_below hm.2 (by omega)
    rcases Nat.lt_trichotomy a x with h | h | h
    · by_cases hb : b = Config.unlistedByte
      · by_cases hc : c = a
        · subst hc
          simp [Memory.write, Memory.read, h, hb, hrest c (by omega), Nat.ne_of_lt h]
        · simp [Memory.write, h, hb, hc]
      · simp [Memory.write, Memory.read, h, hb]
    · subst h
      by_cases hb : b = Config.unlistedByte
      · by_cases hc : c = a
        · subst hc
          simp [Memory.write, hb, hrest c (by omega)]
        · simp [Memory.write, Memory.read, hb, hc]
      · by_cases hc : c = a <;> simp [Memory.write, Memory.read, hb, hc]
    · have h1 : ¬ a < x := by omega
      have h2 : a ≠ x := by omega
      by_cases hcx : c = x
      · subst hcx
        simp [Memory.write, Memory.read, h1, h2, Ne.symm h2]
      · simp [Memory.write, Memory.read, h1, h2, hcx, ih]

/-- A write below the top bound keeps the canonical form. -/
theorem Memory.wfFrom_write {hi : Nat} : ∀ {m : Memory} {lo : Nat}, Memory.wfFrom hi lo m = true →
    ∀ (a : Nat) (b : Byte), lo ≤ a → a < hi → Memory.wfFrom hi lo (m.write a b) = true
  | [], lo, _, a, b, hlo, hhi => by
    by_cases hb : b = Config.unlistedByte <;> simp [Memory.write, Memory.wfFrom, hb, hlo, hhi]
  | (x, y) :: m, lo, hm, a, b, hlo, hhi => by
    simp only [Memory.wfFrom, Bool.and_eq_true, decide_eq_true_eq, bne_iff_ne, ne_eq] at hm
    obtain ⟨⟨⟨h1, h2⟩, h3⟩, h4⟩ := hm
    rcases Nat.lt_trichotomy a x with h | h | h
    · by_cases hb : b = Config.unlistedByte
      · simp [Memory.write, Memory.wfFrom, h, hb, h1, h2, h3, h4]
      · have h5 : a + 1 ≤ x := h
        simp [Memory.write, Memory.wfFrom, h, hb, hlo, hhi, h5, h2, h3, h4]
    · subst h
      by_cases hb : b = Config.unlistedByte
      · simpa [Memory.write, hb] using Memory.wfFrom_mono (by omega) h4
      · simp [Memory.write, Memory.wfFrom, hb, hlo, hhi, h4]
    · have h5 : ¬ a < x := by omega
      have h6 : a ≠ x := by omega
      simpa [Memory.write, Memory.wfFrom, h5, h6, h1, h2, h3] using Memory.wfFrom_write h4 a b h hhi

theorem Memory.wf_write {hi : Nat} {m : Memory} (hm : m.wf hi = true) (a : Nat) (b : Byte) (ha : a < hi) :
    (m.write a b).wf hi = true :=
  Memory.wfFrom_write hm a b (Nat.zero_le a) ha

/-- A byte sequence written below the top bound keeps the canonical form. -/
theorem Memory.wf_writeBytes {hi : Nat} : ∀ (bs : List Byte) {m : Memory} {a : Nat}, m.wf hi = true →
    a + bs.length ≤ hi → (m.writeBytes a bs).wf hi = true
  | [], _, _, hm, _ => hm
  | b :: bs, m, a, hm, h => by
    simp only [List.length_cons] at h
    exact Memory.wf_writeBytes bs (Memory.wf_write hm a b (by omega)) (by omega)

/-- What a read gives after a byte sequence is written, in canonical form. -/
theorem Memory.read_writeBytes {hi : Nat} : ∀ (bs : List Byte) {m : Memory} {a : Nat}, m.wf hi = true →
    a + bs.length ≤ hi → ∀ c, (m.writeBytes a bs).read c =
      if a ≤ c ∧ c < a + bs.length then bs.getD (c - a) Config.unlistedByte else m.read c
  | [], m, a, _, _, c => by
    have : ¬ (a ≤ c ∧ c < a) := by omega
    simp [Memory.writeBytes, this]
  | b :: bs, m, a, hm, h, c => by
    simp only [List.length_cons] at h ⊢
    rw [Memory.writeBytes, Memory.read_writeBytes bs (Memory.wf_write hm a b (by omega)) (by omega),
      Memory.read_write hm]
    by_cases hc : c = a
    · subst hc
      simp
    · by_cases h2 : a + 1 ≤ c ∧ c < a + 1 + bs.length
      · have h3 : a ≤ c ∧ c < a + (bs.length + 1) := by omega
        obtain ⟨k, rfl⟩ : ∃ k, c = a + 1 + k := ⟨c - (a + 1), by omega⟩
        have h4 : a + 1 + k - a = k + 1 := by omega
        rw [if_pos h2, if_pos h3, h4, Nat.add_sub_cancel_left, List.getD_cons_succ]
      · have h3 : ¬ (a ≤ c ∧ c < a + (bs.length + 1)) := by omega
        rw [if_neg h2, if_neg h3, if_neg hc]

theorem Memory.readBytes_length (m : Memory) : ∀ n a, (m.readBytes a n).length = n
  | 0, _ => rfl
  | n + 1, a => by simp [Memory.readBytes, Memory.readBytes_length m n]

/-- Element `j` of the bytes read is the byte at address `a + j`. -/
theorem Memory.readBytes_getElem? (m : Memory) : ∀ n a j, j < n → (m.readBytes a n)[j]? = some (m.read (a + j))
  | n + 1, a, 0, _ => by simp [Memory.readBytes]
  | n + 1, a, j + 1, h => by
    rw [Memory.readBytes, List.getElem?_cons_succ, Memory.readBytes_getElem? m n (a + 1) j (by omega)]
    congr 2
    omega

/-- A part of the bytes read is the bytes read there. -/
theorem Memory.readBytes_drop_take (m : Memory) {n a i k : Nat} (h : i + k ≤ n) :
    ((m.readBytes a n).drop i).take k = m.readBytes (a + i) k := by
  apply List.ext_getElem?
  intro j
  by_cases hj : j < k
  · rw [List.getElem?_take_of_lt hj, List.getElem?_drop, Memory.readBytes_getElem? _ _ _ _ (by omega),
      Memory.readBytes_getElem? _ _ _ _ hj]
    congr 2
    omega
  · rw [List.getElem?_eq_none, List.getElem?_eq_none]
    · rw [Memory.readBytes_length]; omega
    · simp [Memory.readBytes_length]; omega

/-- The cells that hold a byte sequence are in canonical form. -/
theorem Memory.wfFrom_ofBytes : ∀ (bs : List Byte) (a hi : Nat), a + bs.length ≤ hi →
    Memory.wfFrom hi a (Memory.ofBytes a bs) = true
  | [], _, _, _ => rfl
  | b :: bs, a, hi, h => by
    simp only [List.length_cons] at h
    have ih := Memory.wfFrom_ofBytes bs (a + 1) hi (by omega)
    by_cases hb : b = Config.unlistedByte
    · simpa [Memory.ofBytes, hb] using Memory.wfFrom_mono (Nat.le_succ a) ih
    · have : a < hi := by omega
      simp [Memory.ofBytes, Memory.wfFrom, hb, ih, this]

/-- What the cells that hold a byte sequence read as. -/
theorem Memory.read_ofBytes : ∀ (bs : List Byte) (a j : Nat),
    (Memory.ofBytes a bs).read (a + j) = bs.getD j Config.unlistedByte
  | [], _, _ => rfl
  | b :: bs, a, j => by
    have hwf := Memory.wfFrom_ofBytes bs (a + 1) (a + 1 + bs.length) (Nat.le_refl _)
    have hlow : (Memory.ofBytes (a + 1) bs).read a = Config.unlistedByte := Memory.read_below hwf (Nat.lt_succ_self a)
    cases j with
    | zero =>
      by_cases hb : b = Config.unlistedByte
      · simp [Memory.ofBytes, hb, hlow]
      · simp [Memory.ofBytes, Memory.read, hb]
    | succ j =>
      have ih := Memory.read_ofBytes bs (a + 1) j
      have hidx : a + (j + 1) = a + 1 + j := by omega
      have hne : a + 1 + j ≠ a := by omega
      by_cases hb : b = Config.unlistedByte
      · simp [Memory.ofBytes, hb, hidx, ih]
      · simp [Memory.ofBytes, Memory.read, hb, hidx, hne, ih]

/-! ## Buffers -/

@[simp] theorem Buffer.writeBytes_size (b : Buffer) (a : Nat) (bs : List Byte) : (b.writeBytes a bs).size = b.size := rfl

theorem Buffer.wf_empty : Buffer.empty.wf = true := rfl

/-- A buffer provided by the host is in canonical form. -/
theorem Buffer.wf_ofBytes (bs : List Byte) : (Buffer.ofBytes bs).wf = true :=
  Memory.wfFrom_ofBytes bs 0 bs.length (by omega)

/-- Writing inside a buffer keeps its canonical form. -/
theorem Buffer.wf_writeBytes {b : Buffer} (hb : b.wf = true) {a : Nat} {bs : List Byte} (h : a + bs.length ≤ b.size) :
    (b.writeBytes a bs).wf = true :=
  Memory.wf_writeBytes bs hb h

/-- The byte read after writing a buffer in canonical form. -/
theorem Buffer.read_writeBytes {b : Buffer} (hb : b.wf = true) (a : Nat) (bs : List Byte) (c : Nat) :
    (b.writeBytes a bs).read c =
      if a ≤ c ∧ c < a + bs.length then bs.getD (c - a) Config.unlistedByte else b.read c :=
  Memory.read_writeBytes bs (Memory.wfFrom_hi (Nat.le_add_right b.size (a + bs.length)) hb) (Nat.le_add_left _ _) c

theorem Buffer.read_ofBytes (bs : List Byte) (j : Nat) :
    (Buffer.ofBytes bs).read j = bs.getD j Config.unlistedByte := by
  simpa [Buffer.read, Buffer.ofBytes] using Memory.read_ofBytes bs 0 j

/-- Reset's buffers are in canonical form. -/
theorem reset_buffers_wf : State.reset.key.wf = true ∧ State.reset.msg.wf = true ∧ State.reset.tag.wf = true :=
  ⟨rfl, rfl, rfl⟩

end Sys2Proof.Machine
end

