-- ==== Sys2Proof/Laws/Ops.lean ====
section
/-! SUPPORT. For each shared operation, one lemma that says everything it can do; later proofs cite these and do not unfold
the operations. -/

namespace Sys2Proof.Machine

/-! ## Going on after a read -/

@[simp] theorem andThen_ok {α : Type} (x : α) (k : α → Host.Outcome State Fault Refusal) :
    andThen (.ok x) k = k x := rfl

@[simp] theorem andThen_error {α : Type} (e : Stop) (k : α → Host.Outcome State Fault Refusal) :
    andThen (.error e) k = e.toOutcome := rfl

@[simp] theorem Stop.toOutcome_ne_next (e : Stop) (t : State) : e.toOutcome ≠ .next t := by
  cases e <;> simp [Stop.toOutcome]

/-- Going on answers a next state exactly when the read succeeds and what follows answers it. -/
theorem andThen_eq_next {α : Type} {r : Except Stop α} {k : α → Host.Outcome State Fault Refusal} {t : State} :
    andThen r k = .next t ↔ ∃ x, r = .ok x ∧ k x = .next t := by
  cases r <;> simp

/-! ## Register reads -/

theorem readLanes_eq_ok {s : State} {v : Lanes} : readLanes s = .ok v ↔ s.v = some v := by
  unfold readLanes; cases s.v <;> simp

theorem readWidx_eq_ok {s : State} {w : Nat} : readWidx s = .ok w ↔ s.widx = some w := by
  unfold readWidx; cases s.widx <;> simp

theorem readLatched_eq_ok {s : State} {l : Latched} : readLatched s = .ok l ↔ s.latched = some l := by
  unfold readLatched; cases s.latched <;> simp

theorem readLanes_none {s : State} (h : s.v = none) : readLanes s = .error (.fault (.readUnspec .lanes)) := by
  simp [readLanes, h]

theorem readWidx_none {s : State} (h : s.widx = none) : readWidx s = .error (.fault (.readUnspec .widx)) := by
  simp [readWidx, h]

theorem readLatched_none {s : State} (h : s.latched = none) :
    readLatched s = .error (.fault (.readUnspec .descriptor)) := by
  simp [readLatched, h]

/-! ## Memory accesses -/

/-- A `MemRead` succeeds exactly inside the buffer of a latched descriptor, with the bytes there. -/
theorem memRead_eq_ok {sp : Space} {a n : Nat} {s : State} {bs : List Byte} :
    memRead sp a n s = .ok bs ↔
      ∃ l, s.latched = some l ∧ a + n ≤ l.len sp ∧ bs = (s.buffer sp).cells.readBytes a n := by
  unfold memRead readLatched
  cases h : s.latched with
  | none => simp
  | some l => by_cases hb : a + n ≤ l.len sp <;> simp [hb, eq_comm]

theorem memRead_inside {sp : Space} {a n : Nat} {s : State} {l : Latched} (hl : s.latched = some l)
    (h : a + n ≤ l.len sp) : memRead sp a n s = .ok ((s.buffer sp).cells.readBytes a n) :=
  memRead_eq_ok.2 ⟨l, hl, h, rfl⟩

theorem memRead_outside {sp : Space} {a n : Nat} {s : State} {l : Latched} (hl : s.latched = some l)
    (h : l.len sp < a + n) : memRead sp a n s = .error (.refused .readOutsideBuffer) := by
  have hn : ¬ a + n ≤ l.len sp := by omega
  simp [memRead, readLatched, hl, hn]

/-- A `MemWrite` succeeds exactly for the tag of a COMPUTE_TAG, and changes the `TAG` buffer only. -/
theorem memWrite_eq_ok {sp : Space} {a n : Nat} {bs : List Byte} {s t : State} :
    memWrite sp a n bs s = .ok t ↔
      ∃ l, s.latched = some l ∧
        (sp = .tag ∧ a = 0 ∧ n = 8 ∧ bs.length = 8 ∧ l.tagLen = 8 ∧ l.op = .computeTag) ∧
        t = s.setTag (s.tag.writeBytes a bs) := by
  unfold memWrite readLatched
  cases h : s.latched with
  | none => simp
  | some l =>
    by_cases hc : sp = .tag ∧ a = 0 ∧ n = 8 ∧ bs.length = 8 ∧ l.tagLen = 8 ∧ l.op = .computeTag
    · simp [hc, eq_comm]
    · simp only [if_neg hc, reduceCtorEq, false_iff, not_exists, not_and]
      intro l' hl'
      obtain rfl : l = l' := by simpa using hl'
      exact fun h _ => hc h

@[simp] theorem Bytes8.length_toList (e : Bytes8) : e.toList.length = 8 := rfl

/-! ## START and the precondition check -/

/-- `START` answers a next state exactly when the engine is not busy and the lengths lie in the buffers. -/
theorem start_eq_next {l : Latched} {s t : State} :
    start l s = .next t ↔ s.status.busy = false ∧ launchLengths l s = true ∧ t = started l s := by
  unfold start
  cases h : s.status.busy
  · cases hl : launchLengths l s <;> simp [eq_comm]
  · simp

theorem launchLengths_eq {l : Latched} {s : State} :
    launchLengths l s = true ↔ l.keyLen ≤ s.key.size ∧ l.tagLen ≤ s.tag.size ∧ l.msgLen ≤ s.msg.size := by
  simp [launchLengths, and_assoc]

/-- `CHK` finds no error exactly when neither length is bad. -/
theorem chkError_eq_none {p : Config.ErrPriority} {l : Latched} :
    chkError p l = none ↔ keyBad l = false ∧ tagBad l = false := by
  unfold chkError
  cases keyBad l <;> cases tagBad l <;> simp

theorem keyBad_eq_false {l : Latched} : keyBad l = false ↔ l.keyLen = 16 := by simp [keyBad]

theorem tagBad_eq_false {l : Latched} : tagBad l = false ↔ (l.op = .computeTag → l.tagLen = 8) := by
  unfold tagBad
  by_cases h : l.op = .computeTag <;> simp [h]

/-! ## Host moves -/

theorem hostProvide_eq_next {sp : Space} {bytes : List Byte} {s t : State} :
    hostProvide sp bytes s = .next t ↔ s.status.busy = false ∧ t = s.setBuffer sp (Buffer.ofBytes bytes) := by
  unfold hostProvide
  cases s.status.busy <;> simp [eq_comm]

theorem hostWriteByte_eq_next {sp : Space} {a : Nat} {b : Byte} {s t : State} :
    hostWriteByte sp a b s = .next t ↔
      s.status.busy = false ∧ a < (s.buffer sp).size ∧ t = s.setBuffer sp ((s.buffer sp).writeBytes a [b]) := by
  unfold hostWriteByte
  cases s.status.busy
  · by_cases h : a < (s.buffer sp).size <;> simp [h, eq_comm]
  · simp

theorem hostReadTag_eq_next {a : Nat} {s t : State} :
    hostReadTag a s = .next t ↔ s.status.busy = false ∧ a < s.tag.size ∧ t = s := by
  unfold hostReadTag hostTagByte
  cases s.status.busy
  · by_cases h : a < s.tag.size
    · simp [h, eq_comm]
    · simp [h]
  · simp

theorem freeBytes_length : ∀ k n, (freeBytes n k).length = k
  | 0, _ => rfl
  | k + 1, n => by simp [freeBytes, freeBytes_length k]

/-- A reset keeps the size of `TAG`. -/
theorem tagAfterReset_size (s : State) : (tagAfterReset s).size = s.tag.size := by
  unfold tagAfterReset; split <;> simp

/-- A reset keeps the canonical form of `TAG`. -/
theorem tagAfterReset_wf {s : State} (h : s.tag.wf = true) : (tagAfterReset s).wf = true := by
  unfold tagAfterReset
  split
  · exact Buffer.wf_writeBytes h (by rw [freeBytes_length, tornBytes]; omega)
  · exact h

end Sys2Proof.Machine
end

