-- ==== Sys2Proof/Laws/Exec.lean ====
section
/-! SUPPORT. One inversion lemma for each instruction (what it means that it answers a next state), and one for the step.
-/

namespace Sys2Proof.Machine

theorem execComputeTag_eq_next {k t m : Nat} {s s' : State} :
    execComputeTag k t m s = .next s' ↔
      s.status.busy = false ∧ launchLengths ⟨.computeTag, k, t, m⟩ s = true ∧ s' = started ⟨.computeTag, k, t, m⟩ s :=
  start_eq_next

theorem execVerifyTag_eq_next {k t m : Nat} {s s' : State} :
    execVerifyTag k t m s = .next s' ↔
      s.status.busy = false ∧ launchLengths ⟨.verifyTag, k, t, m⟩ s = true ∧ s' = started ⟨.verifyTag, k, t, m⟩ s :=
  start_eq_next

theorem execIdle_eq_next {s s' : State} : execIdle s = .next s' ↔ s' = s.setPhase phaseIdle := by
  simp [execIdle, eq_comm]

theorem execChk_eq_next {s s' : State} :
    execChk s = .next s' ↔ ∃ l, s.latched = some l ∧
      ((chkError Config.errPriority l = none ∧ s' = s.setPhase phaseInit) ∨
        ∃ e, chkError Config.errPriority l = some e ∧ s' = raise e s) := by
  simp only [execChk, andThen_eq_next, readLatched_eq_ok]
  refine exists_congr fun l => and_congr_right fun _ => ?_
  cases chkError Config.errPriority l <;> simp [eq_comm]

theorem execInit_eq_next {s s' : State} :
    execInit s = .next s' ↔ ∃ l, s.latched = some l ∧ 16 ≤ l.keyLen ∧
      s' = ((s.setLanes (some (initState (le64 (s.key.cells.readBytes 0 8)) (le64 (s.key.cells.readBytes 8 8))))).setWidx
        (some 0)).setPhase (if 0 < l.nwords then phaseCmpr else phaseTail) := by
  simp only [execInit, andThen_eq_next, readLatched_eq_ok, memRead_eq_ok, Host.Outcome.next.injEq]
  constructor
  · rintro ⟨l, hl, _, ⟨_, h0, _, rfl⟩, _, ⟨l2, h2, hk, rfl⟩, rfl⟩
    obtain rfl : l = l2 := by simpa [hl] using h2
    exact ⟨l, hl, hk, rfl⟩
  · rintro ⟨l, hl, hk, rfl⟩
    have h0 : 0 + 8 ≤ l.len .key := by simp only [Latched.len]; omega
    exact ⟨l, hl, _, ⟨l, hl, h0, rfl⟩, _, ⟨l, hl, hk, rfl⟩, rfl⟩

theorem execCmpr_eq_next {s s' : State} :
    execCmpr s = .next s' ↔ ∃ l w v, s.latched = some l ∧ s.widx = some w ∧ s.v = some v ∧ 8 * w + 8 ≤ l.msgLen ∧
      s' = ((s.setLanes (some (compress v (le64 (s.msg.cells.readBytes (8 * w) 8))))).setWidx (some (w + 1))).setPhase
        (if w + 1 < l.nwords then phaseCmpr else phaseTail) := by
  simp only [execCmpr, andThen_eq_next, readLatched_eq_ok, readWidx_eq_ok, readLanes_eq_ok, memRead_eq_ok,
    Host.Outcome.next.injEq]
  constructor
  · rintro ⟨l, hl, w, hw, _, ⟨l2, h2, hm, rfl⟩, v, hv, rfl⟩
    obtain rfl : l = l2 := by simpa [hl] using h2
    exact ⟨l, w, v, hl, hw, hv, hm, rfl⟩
  · rintro ⟨l, w, v, hl, hw, hv, hm, rfl⟩
    exact ⟨l, hl, w, hw, _, ⟨l, hl, hm, rfl⟩, v, hv, rfl⟩

theorem execTail_eq_next {s s' : State} :
    execTail s = .next s' ↔ ∃ l w v, s.latched = some l ∧ s.widx = some w ∧ s.v = some v ∧
      s' = (s.setLanes (some (compress v (pack (s.msg.cells.readBytes (8 * l.nwords) l.left) l.msgLen)))).setPhase
        phaseFin := by
  simp only [execTail, andThen_eq_next, readLatched_eq_ok, readWidx_eq_ok, readLanes_eq_ok, memRead_eq_ok,
    Host.Outcome.next.injEq]
  constructor
  · rintro ⟨l, hl, w, hw, _, ⟨_, _, _, rfl⟩, v, hv, rfl⟩
    exact ⟨l, w, v, hl, hw, hv, rfl⟩
  · rintro ⟨l, w, v, hl, hw, hv, rfl⟩
    have hm : 8 * l.nwords + l.left ≤ l.len .msg := by
      simp only [Latched.nwords, Latched.left, Latched.len]; omega
    exact ⟨l, hl, w, hw, _, ⟨l, hl, hm, rfl⟩, v, hv, rfl⟩

theorem execFin_eq_next {s s' : State} :
    execFin s = .next s' ↔ ∃ v, s.v = some v ∧ s' = (s.setLanes (some (finalizeLanes v))).setPhase phaseOut := by
  simp only [execFin, andThen_eq_next, readLanes_eq_ok, Host.Outcome.next.injEq]
  exact exists_congr fun v => and_congr_right fun _ => eq_comm

theorem execOut_eq_next {s s' : State} :
    execOut s = .next s' ↔ ∃ l v, s.latched = some l ∧ s.v = some v ∧
      ((l.op = .computeTag ∧ l.tagLen = 8 ∧
          s' = endCommand (s.setTag (s.tag.writeBytes 0 (enc (xred v)).toList))) ∨
        (l.op = .verifyTag ∧ s' = ((s.setTagreg (enc (xred v))).setLanes none).setPhase phaseCmp)) := by
  simp only [execOut, andThen_eq_next, readLatched_eq_ok, readLanes_eq_ok]
  constructor
  · rintro ⟨l, hl, v, hv, h⟩
    refine ⟨l, v, hl, hv, ?_⟩
    cases hop : l.op with
    | computeTag =>
      simp only [hop, andThen_eq_next, memWrite_eq_ok, Host.Outcome.next.injEq] at h
      obtain ⟨_, ⟨l2, h2, hc, rfl⟩, rfl⟩ := h
      obtain rfl : l = l2 := by simpa [hl] using h2
      exact .inl ⟨rfl, hc.2.2.2.2.1, rfl⟩
    | verifyTag =>
      simp only [hop, Host.Outcome.next.injEq] at h
      exact .inr ⟨rfl, h.symm⟩
  · rintro ⟨l, v, hl, hv, ⟨hop, ht, rfl⟩ | ⟨hop, rfl⟩⟩
    · refine ⟨l, hl, v, hv, ?_⟩
      simp only [hop, andThen_eq_next, memWrite_eq_ok, Host.Outcome.next.injEq]
      exact ⟨_, ⟨l, hl, ⟨trivial, trivial, trivial, rfl, ht, hop⟩, rfl⟩, rfl⟩
    · exact ⟨l, hl, v, hv, by simp only [hop]⟩

theorem execCmp_eq_next {s s' : State} :
    execCmp s = .next s' ↔ ∃ l, s.latched = some l ∧
      s' = (s.setStatus (s.status.withResult
        (decide (l.tagLen = 8 ∧ s.tag.cells.readBytes 0 8 = s.tagreg.toList)))).setPhase phaseZer := by
  simp only [execCmp, andThen_eq_next, readLatched_eq_ok]
  refine exists_congr fun l => and_congr_right fun hl => ?_
  by_cases h : l.tagLen = 8
  · simp only [h, if_true, andThen_eq_next, memRead_eq_ok, Host.Outcome.next.injEq, true_and]
    constructor
    · rintro ⟨_, ⟨_, _, _, rfl⟩, rfl⟩
      rfl
    · rintro rfl
      exact ⟨_, ⟨l, hl, by simp only [Latched.len]; omega, rfl⟩, rfl⟩
  · simp [h, eq_comm]

theorem execZer_eq_next {s s' : State} : execZer s = .next s' ↔ s' = endCommand (s.setTagreg Bytes8.zero) := by
  simp [execZer, eq_comm]

/-! ## The step -/

/-- Running what a decoder reads. -/
theorem step_of_fetch_run {s t : State} {i : Instr} (h : fetch s = .run i t) : step s = exec i t := by
  simp [step, h]

theorem step_of_fetch_settled {s : State} {o : Host.Outcome State Fault Refusal} (h : fetch s = .settled o) :
    step s = o := by
  simp [step, h]

@[simp] theorem dispatchDecoded_ok (i : Instr) (s : State) : dispatchDecoded (.ok i) s = .run i s := rfl

@[simp] theorem dispatchDecoded_error (e : DecodeError) (s : State) :
    dispatchDecoded (.error e) s = .settled (.refused (refusalOf e)) := rfl

theorem dispatchDecoded_next {r : Except DecodeError Instr} {s t : State}
    (h : (match dispatchDecoded r s with
      | .run i u => exec i u
      | .settled o => o) = .next t) : ∃ i, r = .ok i ∧ exec i s = .next t := by
  cases r with
  | ok i => exact ⟨i, rfl, h⟩
  | error e => simp at h

/-- Everything a step that answers a next state can be: a uop of `phase`, a command the host's descriptor starts, or a
move of the outside world. -/
theorem step_cases {s t : State} (h : step s = .next t) :
    (∃ i, decodeUop s.phase = .ok i ∧
      ((s.pending = [] ∧ exec i s = .next t) ∨
        ∃ rest, s.pending = .letRun :: rest ∧ exec i (s.setPending rest) = .next t)) ∨
    (∃ d rest i, s.pending = .writeDesc d :: rest ∧ decodeDescriptor d = .ok i ∧
      exec i (s.setPending rest) = .next t) ∨
    (∃ sp bytes rest, s.pending = .provide sp bytes :: rest ∧ s.status.busy = false ∧
      t = (s.setPending rest).setBuffer sp (Buffer.ofBytes bytes)) ∨
    (∃ sp a b rest, s.pending = .writeByte sp a b :: rest ∧ s.status.busy = false ∧ a < (s.buffer sp).size ∧
      t = (s.setPending rest).setBuffer sp ((s.buffer sp).writeBytes a [b])) ∨
    (∃ a rest, s.pending = .readTag a :: rest ∧ s.status.busy = false ∧ a < s.tag.size ∧ t = s.setPending rest) ∨
    (∃ rest, s.pending = .reset :: rest ∧ t = resetEvent (s.setPending rest)) := by
  have hbuf : ∀ rest sp, (s.setPending rest).buffer sp = s.buffer sp := fun rest sp => by cases sp <;> rfl
  unfold step fetch fetchUop at h
  cases hp : s.pending with
  | nil =>
    simp only [hp] at h
    obtain ⟨i, hi, he⟩ := dispatchDecoded_next h
    exact .inl ⟨i, hi, .inl ⟨rfl, he⟩⟩
  | cons m rest =>
    cases m with
    | letRun =>
      simp only [hp] at h
      obtain ⟨i, hi, he⟩ := dispatchDecoded_next h
      exact .inl ⟨i, hi, .inr ⟨rest, rfl, he⟩⟩
    | writeDesc d =>
      simp only [hp] at h
      obtain ⟨i, hi, he⟩ := dispatchDecoded_next h
      exact .inr (.inl ⟨d, rest, i, rfl, hi, he⟩)
    | provide sp bytes =>
      simp only [hp, hostProvide_eq_next] at h
      exact .inr (.inr (.inl ⟨sp, bytes, rest, rfl, h.1, h.2⟩))
    | writeByte sp a b =>
      simp only [hp, hostWriteByte_eq_next, hbuf] at h
      exact .inr (.inr (.inr (.inl ⟨sp, a, b, rest, rfl, h.1, h.2.1, h.2.2⟩)))
    | readTag a =>
      simp only [hp, hostReadTag_eq_next] at h
      exact .inr (.inr (.inr (.inr (.inl ⟨a, rest, rfl, h.1, h.2.1, h.2.2⟩))))
    | reset =>
      simp only [hp, Host.Outcome.next.injEq] at h
      exact .inr (.inr (.inr (.inr (.inr ⟨rest, rfl, h.symm⟩))))

/-- With no host move before it, a step runs the uop of `phase`. -/
theorem step_uop {s : State} {i : Instr} (hp : s.pending = []) (hi : decodeUop s.phase = .ok i) : step s = exec i s := by
  simp [step, fetch, fetchUop, hp, hi]

/-- No instruction touches the host's moves. -/
theorem exec_pending {i : Instr} {s t : State} (h : exec i s = .next t) : t.pending = s.pending := by
  cases i with
  | computeTag => obtain ⟨_, _, rfl⟩ := execComputeTag_eq_next.1 h; rfl
  | verifyTag => obtain ⟨_, _, rfl⟩ := execVerifyTag_eq_next.1 h; rfl
  | idle => obtain rfl := execIdle_eq_next.1 h; rfl
  | chk => obtain ⟨_, _, ⟨_, rfl⟩ | ⟨_, _, rfl⟩⟩ := execChk_eq_next.1 h <;> rfl
  | init => obtain ⟨_, _, _, rfl⟩ := execInit_eq_next.1 h; rfl
  | cmpr => obtain ⟨_, _, _, _, _, _, _, rfl⟩ := execCmpr_eq_next.1 h; rfl
  | tail => obtain ⟨_, _, _, _, _, _, rfl⟩ := execTail_eq_next.1 h; rfl
  | fin => obtain ⟨_, _, rfl⟩ := execFin_eq_next.1 h; rfl
  | out => obtain ⟨_, _, _, _, ⟨_, _, rfl⟩ | ⟨_, rfl⟩⟩ := execOut_eq_next.1 h <;> rfl
  | cmp => obtain ⟨_, _, rfl⟩ := execCmp_eq_next.1 h; rfl
  | zer => obtain rfl := execZer_eq_next.1 h; rfl

/-! ## Runs -/

/-- A run goes on where its first part ended. -/
theorem run_add (a b : Nat) (s t : State) (h : Host.Core.run Sys2Proof.core a s = .next t) :
    Host.Core.run Sys2Proof.core (a + b) s = Host.Core.run Sys2Proof.core b t := by
  induction a generalizing s with
  | zero => cases h; simp
  | succ a ih =>
    rw [show a + 1 + b = (a + b) + 1 by omega]
    simp only [Host.Core.run] at h ⊢
    cases hs : Sys2Proof.core.step s with
    | next u => simp only [hs] at h ⊢; exact ih u h
    | fault f => simp only [hs] at h; cases h
    | refused f => simp only [hs] at h; cases h

/-- One step before a run. -/
theorem run_cons {a : Nat} {s t u : State} (h : step s = .next t) (h2 : Host.Core.run Sys2Proof.core a t = .next u) :
    Host.Core.run Sys2Proof.core (a + 1) s = .next u := by
  simp only [Host.Core.run]
  rw [show Sys2Proof.core.step s = .next t from h]
  exact h2

end Sys2Proof.Machine
end

