-- ==== Sys2Proof/Laws/PerInstr.lean ====
section
/-! SUPPORT. The family EncodedWidth: the encoding of a well-formed instruction has the width of its format (30_encoding.md
R80): a uop code below 0x9, a descriptor below 2^(8 + 3*LEN_W). -/

namespace Sys2Proof.Laws.EncodedWidth

/-- The encoded instruction has the width of its format. -/
def fits (lenW : Nat) : Encoded → Prop
  | .command w => w < 2 ^ descriptorBits lenW
  | .uop c => c.toNat ≤ 8

/-- The family's statement about one instruction. -/
def Statement (i : Instr) : Prop := ∀ lenW, i.wf lenW = true → fits lenW (encode lenW i)

/-- One more field above a number that fits. -/
theorem field_lt {x A k q : Nat} (hx : x < A) (hk : k < q) : x + k * A < A * q := by
  have h : (k + 1) * A ≤ q * A := Nat.mul_le_mul_right A hk
  rw [Nat.add_mul, Nat.one_mul] at h
  rw [Nat.mul_comm A q]
  omega

/-- Fields that fit make a descriptor that fits. -/
theorem pack_lt {lenW k t m : Nat} (o : BitVec 8) (hk : k < 2 ^ lenW) (ht : t < 2 ^ lenW) (hm : m < 2 ^ lenW) :
    Descriptor.pack lenW ⟨o, k, t, m⟩ < 2 ^ descriptorBits lenW := by
  have ho : o.toNat < 2 ^ 8 := o.isLt
  have e1 : 2 ^ (8 + lenW) = 2 ^ 8 * 2 ^ lenW := Nat.pow_add 2 8 lenW
  have e2 : 2 ^ (8 + 2 * lenW) = 2 ^ 8 * 2 ^ lenW * 2 ^ lenW := by rw [← Nat.pow_add, ← Nat.pow_add]; congr 1; omega
  have e3 : 2 ^ descriptorBits lenW = 2 ^ 8 * 2 ^ lenW * 2 ^ lenW * 2 ^ lenW := by
    rw [descriptorBits, ← Nat.pow_add, ← Nat.pow_add, ← Nat.pow_add]; congr 1; omega
  simp only [Descriptor.pack, e1, e2, e3]
  exact field_lt (field_lt (field_lt ho hk) ht) hm

theorem computeTag (k t m : Nat) : Statement (.computeTag k t m) := fun lenW h => by
  simp only [Instr.wf, lenFits, Bool.and_eq_true, decide_eq_true_eq] at h
  exact pack_lt 0x00 h.1.1 h.1.2 h.2

theorem verifyTag (k t m : Nat) : Statement (.verifyTag k t m) := fun lenW h => by
  simp only [Instr.wf, lenFits, Bool.and_eq_true, decide_eq_true_eq] at h
  exact pack_lt 0x01 h.1.1 h.1.2 h.2

theorem idle : Statement .idle := fun _ _ => Nat.le_of_ble_eq_true rfl
theorem chk : Statement .chk := fun _ _ => Nat.le_of_ble_eq_true rfl
theorem init : Statement .init := fun _ _ => Nat.le_of_ble_eq_true rfl
theorem cmpr : Statement .cmpr := fun _ _ => Nat.le_of_ble_eq_true rfl
theorem tail : Statement .tail := fun _ _ => Nat.le_of_ble_eq_true rfl
theorem fin : Statement .fin := fun _ _ => Nat.le_of_ble_eq_true rfl
theorem out : Statement .out := fun _ _ => Nat.le_of_ble_eq_true rfl
theorem cmp : Statement .cmp := fun _ _ => Nat.le_of_ble_eq_true rfl
theorem zer : Statement .zer := fun _ _ => Nat.le_of_ble_eq_true rfl

end Sys2Proof.Laws.EncodedWidth
end

