-- ==== Sys2Proof/Tests/Slice0.lean ====
section
/-! SUPPORT. Tests whose expected results are the spec's own (30_encoding.md, the worked examples of the rules,
95_test_vectors.md), and for each statement with hypotheses a state and operands that meet them. -/

namespace Sys2Proof.Tests

open Sys2Proof.Machine

/-! ## Helpers -/

/-- The bytes 0, 1, ..., n-1: the key K16 and the messages M(n) of 95_test_vectors.md. -/
def upTo (n : Nat) : List Byte := (List.range n).map (BitVec.ofNat 8)

/-- The engine after reset with three buffers the host has provided. -/
def withBuffers (k m t : List Byte) : State :=
  { State.reset with key := Buffer.ofBytes k, msg := Buffer.ofBytes m, tag := Buffer.ofBytes t }

/-- K16, M(15), and an 8-byte tag buffer (program P2). -/
def p2 : State := withBuffers (upTo 16) (upTo 15) (List.replicate 8 0x55)

/-- A command in progress before the uop with code `c`. -/
def before (c : BitVec 4) (l : Latched) (s : State) : State :=
  { s with phase := c, latched := some l, status := ⟨true, false, 0, false⟩ }

/-- The descriptor of program P2, and a VERIFY_TAG's of the same lengths. -/
def d15 : Latched := ⟨.computeTag, 16, 8, 15⟩
def dVerify : Latched := ⟨.verifyTag, 16, 8, 15⟩

/-- The state words of program P2 after INIT, CMPR 0, TAIL and FIN. -/
def vInit : Lanes := ⟨0x7469686173716475, 0x6b617f6d656e6665, 0x6b7f62616d677361, 0x7b6b696e727e6c7b⟩
def vCmpr : Lanes := ⟨0x4a017198de0a59e0, 0x0d52f6f62a4f59a4, 0x634cb3577b01fd3d, 0xa5224d6f55c7d9c8⟩
def vTail : Lanes := ⟨0x3c85b3ab6f55be51, 0x414fc3fb98efe374, 0xccf13ea527b9f4bd, 0x5293f5da84008f82⟩
def vFin : Lanes := ⟨0xf6bcd53893fecff1, 0x54b9964c7ea0d937, 0x1b38329c099bb55a, 0x1814bb89ad7be679⟩

/-- The tag of K16 and M(15). -/
def tag15 : Bytes8 := ⟨0xe5, 0x45, 0xbe, 0x49, 0x61, 0xca, 0x29, 0xa1⟩

/-- The next state, if there is one. -/
def nextOf : Host.Outcome State Fault Refusal → Option State
  | .next t => some t
  | .fault _ => none
  | .refused _ => none

/-- The refusal, if there is one. -/
def refusalIn : Host.Outcome State Fault Refusal → Option Refusal
  | .next _ => none
  | .fault _ => none
  | .refused r => some r

/-! ## Well-formedness: each length check refuses a length one above what its field holds -/

theorem test_wf_compute_key : (Instr.computeTag 256 0 0).wf 8 = false := by decide
theorem test_wf_compute_tag : (Instr.computeTag 0 256 0).wf 8 = false := by decide
theorem test_wf_compute_msg : (Instr.computeTag 0 0 256).wf 8 = false := by decide
theorem test_wf_verify_key : (Instr.verifyTag 256 0 0).wf 8 = false := by decide
theorem test_wf_verify_tag : (Instr.verifyTag 0 256 0).wf 8 = false := by decide
theorem test_wf_verify_msg : (Instr.verifyTag 0 0 256).wf 8 = false := by decide
theorem test_wf_top : (Instr.computeTag 255 255 255).wf 8 = true := by decide

/-! ## Decoding: words written out from the encodings -/

/-- Program P2's descriptor for LEN_W = 64 (95_test_vectors.md section 5). -/
theorem test_decode_computeTag :
    decode 64 (.command 0x000000000000000f0000000000000008000000000000001000) = .ok (.computeTag 16 8 15) := by decide
/-- Program P4's descriptor for LEN_W = 64. -/
theorem test_decode_verifyTag :
    decode 64 (.command 0x00000000000000090000000000000008000000000000001001) = .ok (.verifyTag 16 8 9) := by decide
/-- R81 with LEN_W = 4: msg_len 0xa, tag_len 0x8, key_len 0xf, opcode 0x01. -/
theorem test_decode_verifyTag_narrow : decode 4 (.command 0xa8f01) = .ok (.verifyTag 15 8 10) := by decide
theorem test_decode_idle : decode 64 (.uop 0b0000) = .ok .idle := by decide
theorem test_decode_chk : decode 64 (.uop 0b0001) = .ok .chk := by decide
theorem test_decode_init : decode 64 (.uop 0b0010) = .ok .init := by decide
theorem test_decode_cmpr : decode 64 (.uop 0b0011) = .ok .cmpr := by decide
theorem test_decode_tail : decode 64 (.uop 0b0100) = .ok .tail := by decide
theorem test_decode_fin : decode 64 (.uop 0b0101) = .ok .fin := by decide
theorem test_decode_out : decode 64 (.uop 0b0110) = .ok .out := by decide
theorem test_decode_cmp : decode 64 (.uop 0b0111) = .ok .cmp := by decide
theorem test_decode_zer : decode 64 (.uop 0b1000) = .ok .zer := by decide
/-- R85, R86: the reserved encodings at both ends of their ranges, and a descriptor one bit too wide (R80). -/
theorem test_decode_reserved_opcode :
    decode 64 (.command 0x02) = .error (.reservedOpcode 0x02) ∧
    decode 64 (.command 0xff) = .error (.reservedOpcode 0xff) := by decide
theorem test_decode_reserved_uop :
    decode 64 (.uop 0x9) = .error (.reservedUop 0x9) ∧ decode 64 (.uop 0xf) = .error (.reservedUop 0xf) := by decide
theorem test_decode_too_wide : decode 4 (.command 0x100000) = .error .tooWide := by decide

/-- The opcode table's numbering, and that the next step runs the word placed (log entries 10, 11). -/
theorem test_table_word : decodeTableWord 200 0x000000000000000f0000000000000008000000000000001000 =
    some (.computeTag 16 8 15) ∧ decodeTableWord 8 0x01 = some (.verifyTag 0 0 0) ∧ decodeTableWord 4 0x8 = some .zer := by
  decide
theorem test_fetch_word_uop : (nextOf (step (State.reset.withFetchWord 4 0x5))).map State.phase = some 0x6 := by decide
theorem test_fetch_word_tail : (nextOf (step (State.reset.withFetchWord 4 0x4))).map (fun t => (t.phase, t.widx)) =
    some (0x5, some 1) := by decide
theorem test_fetch_word_command :
    (nextOf (step (p2.withFetchWord 200 0x000000000000000f0000000000000008000000000000001000))).map State.latched =
      some (some d15) := by decide

/-! ## The primitives: 42_round.md, 43_compress.md, 44_tail.md, 45_finalize_output.md -/

theorem test_add64 : add64 0x7469686173716475 0x6b617f6d656e6665 = 0xdfcae7ced8dfcada ∧
    add64 0xffffffffffffffff 1 = 0 := by decide
theorem test_rotl64 : rotl64 0x0123456789abcdef 13 = 0x68acf13579bde024 ∧
    rotl64 0x0123456789abcdef 32 = 0x89abcdef01234567 ∧ rotl64 0x8000000000000001 13 = 0x0000000000003000 := by decide
theorem test_halfA : halfA vInit =
    ⟨0xd8dfcadadfcae7ce, 0xf0274b63141367b6, 0xe6eacbcfdfe5dfdc, 0x8f84b9b1b39ea4b7⟩ := by decide
theorem test_halfB : halfB ⟨0x0000000100000000, 1, 0, 0⟩ =
    ⟨0x0000000100000000, 0x0000000000020001, 0x0000000100000000, 0x0000000100000000⟩ := by decide
theorem test_sipRound : sipRound vInit =
    ⟨0x6864848c93698c85, 0x41d43f143c94a7dc, 0xf3f94792d7121732, 0x5e52f75805987c12⟩ := by decide
theorem test_compress : compress vInit 0x0706050403020100 = vCmpr := by decide
theorem test_pack : pack [0x08, 0x09, 0x0a, 0x0b, 0x0c, 0x0d, 0x0e] 15 = 0x0f0e0d0c0b0a0908 ∧
    pack [0x5a] 257 = 0x010000000000005a ∧ pack [] 256 = 0 := by decide
theorem test_xred_enc : enc (xred vFin) = tag15 := by decide

/-- 95_test_vectors.md section 2: the two answers known from outside the source. -/
theorem test_known_answer_empty :
    sipHash24 (upTo 16) [] = ⟨0x31, 0x0e, 0x0e, 0xdd, 0x47, 0xdb, 0x6f, 0x72⟩ := by decide
theorem test_known_answer_15 : sipHash24 (upTo 16) (upTo 15) = tag15 := by decide

/-! ## One step of each instruction: the examples of its rule -/

/-- R101's example. -/
theorem test_computeTag : (nextOf (exec (.computeTag 16 8 0) p2)).map (fun t => (t.phase, readStatus t, t.latched)) =
    some (0x1, 0x01, some ⟨.computeTag, 16, 8, 0⟩) := by decide
theorem test_verifyTag : (nextOf (exec (.verifyTag 16 7 9) p2)).map (fun t => (t.phase, readStatus t, t.latched)) =
    some (0x1, 0x01, some ⟨.verifyTag, 16, 7, 9⟩) := by decide
/-- R106. -/
theorem test_idle : nextOf (exec .idle p2) = some p2 := by decide
/-- R107's example (program P6a). -/
theorem test_chk_error : (nextOf (exec .chk (before 0x1 ⟨.computeTag, 15, 8, 3⟩ p2))).map
    (fun t => (readStatus t, readErrinfo t, t.tag)) = some (0x06, 0x0110, p2.tag) := by decide
/-- Program P6d: a VERIFY_TAG's tag length is not examined. -/
theorem test_chk_verify : (nextOf (exec .chk (before 0x1 ⟨.verifyTag, 16, 7, 3⟩ p2))).map State.phase = some 0x2 := by
  decide
/-- R121's example. -/
theorem test_init : (nextOf (exec .init (before 0x2 d15 p2))).map (fun t => (t.v, t.widx, t.phase)) =
    some (some vInit, some 0, 0x3) := by decide
/-- R152's example. -/
theorem test_cmpr : (nextOf (exec .cmpr (before 0x3 d15 { p2 with v := some vInit, widx := some 0 }))).map
    (fun t => (t.v, t.widx, t.phase)) = some (some vCmpr, some 1, 0x4) := by decide
/-- R163's example. -/
theorem test_tail : (nextOf (exec .tail (before 0x4 d15 { p2 with v := some vCmpr, widx := some 1 }))).map
    (fun t => (t.v, t.widx, t.phase)) = some (some vTail, some 1, 0x5) := by decide
/-- R27, R15: TAIL reads `widx`, and a register without a value is a model fault when read. -/
theorem test_tail_reads_widx :
    execTail (before 0x4 d15 { p2 with v := some vCmpr }) = .fault (.readUnspec .widx) := rfl
/-- R171's example. -/
theorem test_fin : (nextOf (exec .fin (before 0x5 d15 { p2 with v := some vTail, widx := some 1 }))).map
    (fun t => (t.v, t.phase)) = some (some vFin, 0x6) := by decide
/-- R175's example, both commands. -/
theorem test_out_compute : (nextOf (exec .out (before 0x6 d15 { p2 with v := some vFin, widx := some 1 }))).map
    (fun t => (t.tag.bytes 8, t.tagreg, readStatus t, t.v)) = some (tag15.toList, Bytes8.zero, 0x02, none) := by decide
theorem test_out_verify : (nextOf (exec .out (before 0x6 dVerify { p2 with v := some vFin, widx := some 1 }))).map
    (fun t => (t.tag, t.tagreg, readStatus t, t.phase)) = some (p2.tag, tag15, 0x01, 0x7) := by decide
/-- R186's examples. -/
theorem test_cmp_equal : (nextOf (exec .cmp (before 0x7 dVerify
    { withBuffers (upTo 16) (upTo 15) tag15.toList with tagreg := tag15 }))).map
    (fun t => (t.status.result, t.phase)) = some (true, 0x8) := by decide
theorem test_cmp_short : (nextOf (exec .cmp (before 0x7 ⟨.verifyTag, 16, 7, 15⟩
    { withBuffers (upTo 16) (upTo 15) (tag15.toList.take 7) with tagreg := tag15 }))).map
    (fun t => (t.status.result, t.phase)) = some (false, 0x8) := by decide
/-- R188's example. -/
theorem test_zer : (nextOf (exec .zer (before 0x8 dVerify { p2 with tagreg := tag15 }))).map
    (fun t => (t.tagreg, dbgTagreg t, readStatus t)) = some (Bytes8.zero, 0, 0x02) := by decide

/-! ## The outside world -/

/-- R233: a reset that abandons a VERIFY_TAG clears TAGREG and leaves TAG. -/
theorem test_reset_event : (nextOf (step (before 0x7 dVerify { p2 with tagreg := tag15, pending := [.reset] }))).map
    (fun t => (t.tagreg, t.tag, t.latched, readStatus t)) = some (Bytes8.zero, p2.tag, none, 0x00) := by decide
/-- R239. -/
theorem test_start_while_busy :
    refusalIn (step (before 0x1 d15 { p2 with pending := [.writeDesc ⟨0x00, 16, 8, 0⟩] })) = some .startWhileBusy := by
  decide

/-! ## Witnesses: for each statement with hypotheses, a state and operands that meet them -/

/-- ReservedCodesRefusedByStep: both ends of each reserved range. -/
theorem witness_ReservedCodesRefusedByStep :
    (2 ≤ (0x02 : BitVec 8).toNat ∧ 2 ≤ (0xff : BitVec 8).toNat ∧
      ({ p2 with pending := [.writeDesc ⟨0x02, 16, 8, 0⟩] } : State).pending = .writeDesc ⟨0x02, 16, 8, 0⟩ :: []) ∧
    (9 ≤ ({ p2 with phase := 0x9 } : State).phase.toNat ∧ 9 ≤ ({ p2 with phase := 0xf } : State).phase.toNat ∧
      ({ p2 with phase := 0x9 } : State).pending = []) := by decide

theorem witness_DecodeOfEncodeGivesInstruction :
    (Instr.computeTag 255 0 255).wf 8 = true ∧ (Instr.verifyTag 0 255 0).wf 8 = true ∧ Instr.zer.wf 0 = true := by decide

theorem witness_EncodeOfDecodeGivesWord :
    decode 8 (.command 0xff00ff00) = .ok (.computeTag 255 0 255) ∧ decode 8 (.command 0x01) = .ok (.verifyTag 0 0 0) ∧
    decode 8 (.uop 0x0) = .ok .idle ∧ decode 8 (.uop 0x8) = .ok .zer := by decide

theorem witness_DescriptorFieldPlaces : 255 < 2 ^ 8 ∧ 0 < 2 ^ 8 ∧ 0 < 2 ^ 0 := by decide

theorem witness_StepRunsUopOfPhase :
    decodeUop ({ p2 with phase := 0x8 } : State).phase = .ok .zer ∧ ({ p2 with phase := 0x8 } : State).pending = [] ∧
    ({ p2 with phase := 0x8, pending := [.letRun, .reset] } : State).pending = .letRun :: [.reset] := by decide

theorem witness_StepRunsWrittenDescriptor :
    ({ p2 with pending := [.writeDesc ⟨0x01, 16, 8, 9⟩] } : State).pending = .writeDesc ⟨0x01, 16, 8, 9⟩ :: [] ∧
    decodeDescriptor ⟨0x01, 16, 8, 9⟩ = .ok (.verifyTag 16 8 9) := by decide

/-- StartLatchesDescriptor: every length at the size of its buffer. -/
theorem witness_StartLatchesDescriptor :
    p2.status.busy = false ∧ 16 ≤ p2.key.size ∧ p2.key.size ≤ 16 ∧ 8 ≤ p2.tag.size ∧ p2.tag.size ≤ 8 ∧
    15 ≤ p2.msg.size ∧ p2.msg.size ≤ 15 := by decide

theorem witness_StartWhileBusyRefused :
    (before 0x1 d15 { p2 with pending := [.writeDesc ⟨0x01, 16, 8, 9⟩] }).status.busy = true ∧
    (0x01 : BitVec 8).toNat < 2 ∧
    (before 0x1 d15 { p2 with pending := [.writeDesc ⟨0x01, 16, 8, 9⟩] }).pending = .writeDesc ⟨0x01, 16, 8, 9⟩ :: [] := by
  decide

/-- FalseLengthsRefused: each length one above its buffer. -/
theorem witness_FalseLengthsRefused : p2.status.busy = false ∧
    (p2.key.size < 17 ∨ p2.tag.size < 8 ∨ p2.msg.size < 15) ∧ (p2.key.size < 16 ∨ p2.tag.size < 9 ∨ p2.msg.size < 15) ∧
    (p2.key.size < 16 ∨ p2.tag.size < 8 ∨ p2.msg.size < 16) := by decide

/-- ChkPassesOrRaises: one descriptor for each clause, at the lengths next to the right ones. -/
theorem witness_ChkPassesOrRaises :
    (before 0x1 ⟨.verifyTag, 16, 7, 3⟩ p2).latched = some ⟨.verifyTag, 16, 7, 3⟩ ∧
    p2.v = none ∧ p2.widx = none ∧
    (∃ l : Latched, l.keyLen = 16 ∧ (l.op = .computeTag → l.tagLen = 8)) ∧
    (∃ l : Latched, l.keyLen ≠ 16 ∧ (l.op = .computeTag → l.tagLen = 8)) ∧
    (∃ l : Latched, l.keyLen = 16 ∧ l.op = .computeTag ∧ l.tagLen ≠ 8) ∧
    (∃ l : Latched, l.keyLen ≠ 16 ∧ l.op = .computeTag ∧ l.tagLen ≠ 8) :=
  ⟨rfl, rfl, rfl, ⟨⟨.verifyTag, 16, 7, 3⟩, by decide⟩, ⟨⟨.computeTag, 15, 8, 3⟩, by decide⟩,
    ⟨⟨.computeTag, 16, 9, 3⟩, by decide⟩, ⟨⟨.computeTag, 17, 7, 3⟩, by decide⟩⟩

theorem witness_ChkBothWrongFollowsPriority :
    (before 0x1 ⟨.computeTag, 15, 7, 3⟩ p2).latched = some ⟨.computeTag, 15, 7, 3⟩ ∧ 15 ≠ 16 ∧ 7 ≠ 8 ∧
    (before 0x1 ⟨.computeTag, 15, 7, 3⟩ p2).v = none ∧ (before 0x1 ⟨.computeTag, 15, 7, 3⟩ p2).widx = none := by decide

theorem witness_HostSeesTheError_key :
    EngineInv (before 0x1 ⟨.computeTag, 15, 8, 3⟩ p2) ∧ (before 0x1 ⟨.computeTag, 15, 8, 3⟩ p2).phase = 0x1 ∧
    (nextOf (exec .chk (before 0x1 ⟨.computeTag, 15, 8, 3⟩ p2))).map State.phase = some 0x0 :=
  ⟨by decide, by decide, by decide⟩
theorem witness_HostSeesTheError_tag :
    EngineInv (before 0x1 ⟨.computeTag, 16, 7, 3⟩ p2) ∧ (before 0x1 ⟨.computeTag, 16, 7, 3⟩ p2).phase = 0x1 ∧
    (nextOf (exec .chk (before 0x1 ⟨.computeTag, 16, 7, 3⟩ p2))).map State.phase = some 0x0 :=
  ⟨by decide, by decide, by decide⟩

theorem witness_IdleChangesNothing : p2.phase = 0x0 ∧ EngineInv p2 := by decide

theorem witness_InitSeedsStateWords :
    (before 0x2 d15 p2).latched = some d15 ∧ 16 ≤ d15.keyLen ∧ d15.keyLen ≤ 16 := by decide

/-- CmprAbsorbsFullWord: the last full word of M(15). -/
theorem witness_CmprAbsorbsFullWord :
    (before 0x3 d15 { p2 with v := some vInit, widx := some 0 }).latched = some d15 ∧
    (before 0x3 d15 { p2 with v := some vInit, widx := some 0 }).v = some vInit ∧
    (before 0x3 d15 { p2 with v := some vInit, widx := some 0 }).widx = some 0 ∧ 0 < d15.msgLen / 8 ∧
    ¬ 1 < d15.msgLen / 8 := by decide

theorem witness_TailAbsorbsTailWord :
    (before 0x4 d15 { p2 with v := some vCmpr, widx := some 1 }).latched = some d15 ∧
    (before 0x4 d15 { p2 with v := some vCmpr, widx := some 1 }).v = some vCmpr ∧
    (before 0x4 d15 { p2 with v := some vCmpr, widx := some 1 }).widx = some 1 := by decide

theorem witness_FinAppliesFourRounds : ({ p2 with v := some vTail } : State).v = some vTail := by decide

theorem witness_OutWritesTheTag :
    (before 0x6 d15 { p2 with v := some vFin }).latched = some d15 ∧
    (before 0x6 d15 { p2 with v := some vFin }).v = some vFin ∧ d15.op = .computeTag ∧ d15.tagLen = 8 ∧
    p2.tag.wf = true ∧ dVerify.op = .verifyTag := by decide

theorem witness_CmpWritesTheVerdict : (before 0x7 dVerify p2).latched = some dVerify := by decide

/-- UopsStopWithoutTheirOperands: one state for each clause, at the boundary lengths. -/
theorem witness_UopsStopWithoutTheirOperands :
    p2.latched = none ∧ p2.v = none ∧ p2.widx = none ∧
    (before 0x4 d15 p2).latched = some d15 ∧ (before 0x4 d15 p2).v = none ∧ (before 0x3 d15 p2).widx = none ∧
    (before 0x4 d15 { p2 with widx := some 1 }).widx = some 1 ∧ (before 0x4 d15 { p2 with widx := some 1 }).v = none ∧
    (⟨.computeTag, 15, 8, 15⟩ : Latched).keyLen < 16 ∧
    d15.msgLen / 8 ≤ 1 ∧ 0 < d15.msgLen / 8 ∧
    (⟨.computeTag, 16, 7, 15⟩ : Latched).op = .computeTag ∧ (⟨.computeTag, 16, 7, 15⟩ : Latched).tagLen ≠ 8 := by decide

theorem witness_RotationMovesEachBit : 0 < 1 ∧ 1 < 64 ∧ 0 < 63 ∧ 63 < 64 := by decide

/-- PackPlacesItsFields and PackIsLittleEndianWord: no leftover byte, and seven. -/
theorem witness_Pack : ([] : List Byte).length = 8 % 8 ∧ (upTo 7).length = 15 % 8 ∧ (upTo 7)[6]? = some 6 ∧
    (upTo 6).length ≤ 6 ∧ 6 < 7 := by decide

/-- MemReadInsideItsBuffer: a read that ends at the end of the buffer, and one byte beyond. -/
theorem witness_MemReadInsideItsBuffer : (before 0x2 d15 p2).latched = some d15 ∧ 8 + 8 ≤ d15.len .key ∧
    d15.len .key < 9 + 8 ∧ 15 + 0 ≤ d15.len .msg := by decide

theorem witness_MemWriteIsTheTagOnly : (before 0x6 d15 p2).latched = some d15 ∧ p2.tag.wf = true ∧
    (Space.tag = .tag ∧ 0 = 0 ∧ 8 = 8 ∧ tag15.toList.length = 8 ∧ d15.tagLen = 8 ∧ d15.op = .computeTag) ∧
    ¬ (Space.tag = .tag ∧ 0 = 0 ∧ 8 = 8 ∧ tag15.toList.length = 8 ∧ dVerify.tagLen = 8 ∧ dVerify.op = .computeTag) := by
  decide

/-- The statements over every instruction that answers a next state (EngineWritesOnlyTheTag,
DescriptorRegistersHaveOneWriter, StatusHasItsWriters, SuccessorOfEachUop): each instruction answers one. -/
theorem witness_every_instruction_completes :
    p2.tag.wf = true ∧
    ([.computeTag 16 8 15, .verifyTag 16 8 15, .idle].all fun i => (nextOf (exec i p2)).isSome) = true ∧
    ([.chk, .init, .cmpr, .tail, .fin, .out, .cmp, .zer].all fun i =>
      (nextOf (exec i (before 0x3 d15 { p2 with v := some vInit, widx := some 0 }))).isSome) = true := by decide

theorem witness_ResetEventFromAnyState :
    (before 0x6 d15 { p2 with pending := [.reset] }).pending = .reset :: [] ∧ p2.tag.wf = true ∧
    ¬ ((before 0x6 dVerify { p2 with pending := [.reset] }).status.busy = true ∧
      (before 0x6 dVerify { p2 with pending := [.reset] }).latched.map Latched.op = some .computeTag) := by decide

theorem witness_HostAccessWhileBusyRefused :
    (before 0x1 d15 { p2 with pending := [.readTag 0] }).status.busy = true ∧
    (before 0x1 d15 { p2 with pending := [.provide .key []] }).pending = .provide .key [] :: [] ∧
    (before 0x1 d15 { p2 with pending := [.writeByte .tag 7 0] }).pending = .writeByte .tag 7 0 :: [] ∧
    (before 0x1 d15 { p2 with pending := [.readTag 0] }).pending = .readTag 0 :: [] := by decide

/-- HostProvidesAndWritesBuffers: the last byte of a buffer. -/
theorem witness_HostProvidesAndWritesBuffers :
    p2.status.busy = false ∧ ({ p2 with pending := [.provide .msg [0x00, 0x01]] } : State).pending =
      .provide .msg [0x00, 0x01] :: [] ∧ ([0x00, 0x01] : List Byte)[1]? = some 0x01 ∧
    ({ p2 with pending := [.writeByte .tag 7 0x00] } : State).pending = .writeByte .tag 7 0x00 :: [] ∧
    7 < (p2.buffer .tag).size ∧ (p2.buffer .tag).wf = true := by decide

/-- StepKeepsInvariant and EngineNeverStops: a state inside a command meets the invariant and steps. -/
theorem witness_StepKeepsInvariant :
    EngineInv (before 0x3 d15 { p2 with v := some vInit, widx := some 0 }) ∧
    (nextOf (step (before 0x3 d15 { p2 with v := some vInit, widx := some 0 }))).isSome = true ∧
    (before 0x3 d15 { p2 with v := some vInit, widx := some 0 }).pending = [] := by decide

/-- NoUnspecReadFromReset, ErrinfoIsFunctionOfErr and TagregZeroWheneverIdle: a run from reset with host moves. -/
theorem witness_runs_from_reset :
    (nextOf (Host.Core.run Sys2Proof.core 3
      { State.reset with pending := [.provide .key (upTo 15), .writeDesc ⟨0x01, 15, 0, 0⟩] })).map
      (fun t => (t.phase, readStatus t)) = some (0x0, 0x06) := by decide

/-- UopSequenceOfDescriptor: a descriptor that passes and one that does not. -/
theorem witness_UopSequenceOfDescriptor :
    EngineInv (before 0x1 d15 p2) ∧ (before 0x1 d15 p2).pending = [] ∧ (before 0x1 d15 p2).phase = 0x1 ∧
    (before 0x1 d15 p2).latched = some d15 :=
  ⟨by decide, by decide, by decide, by decide⟩
theorem witness_UopSequenceOfDescriptor_error :
    EngineInv (before 0x1 ⟨.computeTag, 15, 8, 0⟩ p2) ∧
    (before 0x1 ⟨.computeTag, 15, 8, 0⟩ p2).latched = some ⟨.computeTag, 15, 8, 0⟩ := by decide

theorem witness_ComputeTagGivesClosedForm :
    ({ p2 with pending := [.writeDesc ⟨0x00, 16, 8, 15⟩] } : State).pending = [.writeDesc ⟨0x00, 16, 8, 15⟩] ∧
    p2.status.busy = false ∧ 16 ≤ p2.key.size ∧ 8 ≤ p2.tag.size ∧ 15 ≤ p2.msg.size ∧ p2.tag.wf = true := by decide

theorem witness_VerifyTagGivesVerdict :
    ({ p2 with pending := [.writeDesc ⟨0x01, 16, 7, 0⟩] } : State).pending = [.writeDesc ⟨0x01, 16, 7, 0⟩] ∧
    p2.status.busy = false ∧ 16 ≤ p2.key.size ∧ 7 ≤ p2.tag.size ∧ 0 ≤ p2.msg.size := by decide

/-- EarlierCommandsDoNotMatter: a fresh engine, and one that has rejected a command before. -/
theorem witness_EarlierCommandsDoNotMatter :
    EngineInv { p2 with pending := [.writeDesc ⟨0x00, 16, 8, 15⟩] } ∧ p2.phase = 0x0 ∧
    (nextOf (Host.Core.run Sys2Proof.core (1 + 1) { p2 with pending := [.writeDesc ⟨0x00, 16, 8, 15⟩] })).isSome = true := by
  decide
theorem witness_EarlierCommandsDoNotMatter_after_an_error :
    EngineInv { p2 with
      pending := [.writeDesc ⟨0x00, 16, 8, 15⟩], latched := some dVerify, status := ⟨false, true, 1, false⟩,
      errinfo := 0x0110 } := by decide

end Sys2Proof.Tests
end

/-! Invariants of every run from reset, and the two statements of 10_state.md about TAGREG and ERRINFO (R30, R33). -/

namespace Sys2Proof.Machine

/-! ## What the decoders read -/

/-- A uop is encoded as the code that spells it. -/
theorem encode_of_decodeUop {c : BitVec 4} {i : Instr} (h : decodeUop c = .ok i) (lenW : Nat) :
    encode lenW i = .uop c := by
  unfold decodeUop at h
  split at h <;> cases h <;> exact congrArg Encoded.uop (BitVec.eq_of_toNat_eq (Eq.symm ‹_›))

/-- A descriptor spells a command, and a command is its `START` event. -/
theorem exec_of_decodeDescriptor {d : Descriptor} {i : Instr} (h : decodeDescriptor d = .ok i) :
    ∃ l, ∀ s, exec i s = start l s := by
  unfold decodeDescriptor at h
  split at h <;> cases h
  · exact ⟨⟨.computeTag, d.keyLen, d.tagLen, d.msgLen⟩, fun _ => rfl⟩
  · exact ⟨⟨.verifyTag, d.keyLen, d.tagLen, d.msgLen⟩, fun _ => rfl⟩

/-! ## Invariants of a run from reset -/

/-- `P` is kept by each kind of step, given what that kind of step assures: the host's turn, a buffer the host provides
or writes, a reset, a `START`, and a uop. -/
structure StepKeeps (P : State → Prop) : Prop where
  pending : ∀ {s} rest, P s → P (s.setPending rest)
  buffer : ∀ {s} sp b, P s → s.status.busy = false → ((s.buffer sp).wf = true → b.wf = true) → P (s.setBuffer sp b)
  reset : ∀ {s}, P s → P (resetEvent s)
  start : ∀ {s} l, P s → s.status.busy = false → launchLengths l s = true → P (started l s)
  uop : ∀ {s t i}, P s → decodeUop s.phase = .ok i → exec i s = .next t → P t

theorem StepKeeps.step {P : State → Prop} (hP : StepKeeps P) {s t : State} (hs : P s)
    (h : Machine.step s = .next t) : P t := by
  have hturn (rest : List HostMove) : P (s.setPending rest) := hP.pending rest hs
  obtain ⟨i, hi, ⟨-, he⟩ | ⟨rest, -, he⟩⟩ | ⟨d, rest, i, -, hi, he⟩ | ⟨sp, bytes, rest, -, hb, rfl⟩ |
    ⟨sp, a, x, rest, -, hb, ha, rfl⟩ | ⟨a, rest, -, -, -, rfl⟩ | ⟨rest, -, rfl⟩ := step_cases h
  · exact hP.uop hs hi he
  · exact hP.uop (hturn rest) hi he
  · obtain ⟨l, hl⟩ := exec_of_decodeDescriptor hi
    obtain ⟨hb, hlen, rfl⟩ := start_eq_next.1 (hl _ ▸ he)
    exact hP.start l (hturn rest) hb hlen
  · exact hP.buffer sp _ (hturn rest) hb fun _ => Buffer.wf_ofBytes bytes
  · refine hP.buffer sp _ (hturn rest) hb fun hwf => Buffer.wf_writeBytes (bs := [x]) ?_ ha
    cases sp <;> exact hwf
  · exact hturn rest
  · exact hP.reset (hturn rest)

/-- A run of one step more ends where its first step and the run after it lead. -/
theorem run_succ_eq_next {k : Nat} {s t : State} (h : Host.Core.run Sys2Proof.core (k + 1) s = .next t) :
    ∃ u, step s = .next u ∧ Host.Core.run Sys2Proof.core k u = .next t := by
  simp only [Host.Core.run, show Sys2Proof.core.step s = step s from rfl] at h
  cases hs : step s with
  | next u => exact ⟨u, rfl, by simpa only [hs] using h⟩
  | fault f => simp only [hs, reduceCtorEq] at h
  | refused r => simp only [hs, reduceCtorEq] at h

/-- What holds at the start and is kept by every step holds wherever a run ends. -/
theorem run_keeps {P : State → Prop} (hstep : ∀ {s t}, P s → step s = .next t → P t) {k : Nat} {s t : State}
    (hs : P s) (h : Host.Core.run Sys2Proof.core k s = .next t) : P t := by
  induction k generalizing s with
  | zero => cases h; exact hs
  | succ k ih =>
    obtain ⟨u, hu, hrun⟩ := run_succ_eq_next h
    exact ih (hstep hs hu) hrun

/-- A predicate that holds after reset and is kept by every step holds in every state reached from reset, whatever the
host's moves. -/
theorem StepKeeps.run_from_reset {P : State → Prop} (hP : StepKeeps P) (hreset : P State.reset)
    {moves : List HostMove} {k : Nat} {t : State}
    (h : Host.Core.run Sys2Proof.core k { State.reset with pending := moves } = .next t) : P t :=
  run_keeps hP.step (hP.pending moves hreset) h

/-! ## ERRINFO is a function of STATUS.err (R30) -/

/-- STATUS.err and ERRINFO say the same: no error, or one of the two errors (R29, R30). -/
def ErrRegistersAgree (s : State) : Prop :=
  (s.status.err = 0 ∧ s.errinfo = 0x0000) ∨ ∃ e : Err, s.status.err = e.code ∧ s.errinfo = e.info

/-- The writers of STATUS.err and ERRINFO: `START` clears both, an error of `CHK` sets both, every other instruction
leaves both (R29, R30, R204). -/
theorem exec_err_errinfo {i : Instr} {s t : State} (h : exec i s = .next t) :
    (t.status.err = s.status.err ∧ t.errinfo = s.errinfo) ∨ (t.status.err = 0 ∧ t.errinfo = 0x0000) ∨
      ∃ e : Err, t.status.err = e.code ∧ t.errinfo = e.info := by
  cases i with
  | computeTag => obtain ⟨_, _, rfl⟩ := execComputeTag_eq_next.1 h; exact .inr (.inl ⟨rfl, rfl⟩)
  | verifyTag => obtain ⟨_, _, rfl⟩ := execVerifyTag_eq_next.1 h; exact .inr (.inl ⟨rfl, rfl⟩)
  | idle => obtain rfl := execIdle_eq_next.1 h; exact .inl ⟨rfl, rfl⟩
  | chk =>
    obtain ⟨_, _, ⟨_, rfl⟩ | ⟨e, _, rfl⟩⟩ := execChk_eq_next.1 h
    · exact .inl ⟨rfl, rfl⟩
    · exact .inr (.inr ⟨e, rfl, rfl⟩)
  | init => obtain ⟨_, _, _, rfl⟩ := execInit_eq_next.1 h; exact .inl ⟨rfl, rfl⟩
  | cmpr => obtain ⟨_, _, _, _, _, _, _, rfl⟩ := execCmpr_eq_next.1 h; exact .inl ⟨rfl, rfl⟩
  | tail => obtain ⟨_, _, _, _, _, _, rfl⟩ := execTail_eq_next.1 h; exact .inl ⟨rfl, rfl⟩
  | fin => obtain ⟨_, _, rfl⟩ := execFin_eq_next.1 h; exact .inl ⟨rfl, rfl⟩
  | out => obtain ⟨_, _, _, _, ⟨_, _, rfl⟩ | ⟨_, rfl⟩⟩ := execOut_eq_next.1 h <;> exact .inl ⟨rfl, rfl⟩
  | cmp => obtain ⟨_, _, rfl⟩ := execCmp_eq_next.1 h; exact .inl ⟨rfl, rfl⟩
  | zer => obtain rfl := execZer_eq_next.1 h; exact .inl ⟨rfl, rfl⟩

theorem stepKeeps_errRegistersAgree : StepKeeps ErrRegistersAgree where
  pending _ h := h
  buffer sp _ h _ _ := by simpa [ErrRegistersAgree] using h
  reset _ := .inl ⟨rfl, rfl⟩
  start _ _ _ _ := .inl ⟨rfl, rfl⟩
  uop hs _ he := by
    obtain ⟨herr, hinfo⟩ | hset := exec_err_errinfo he
    · rwa [ErrRegistersAgree, herr, hinfo]
    · exact hset

/-- Settles O48: `START`, the errors of `CHK` and reset write STATUS.err and ERRINFO together, and nothing else writes
either. -/
theorem errinfoIsFunctionOfErr : Obligations.ErrinfoIsFunctionOfErr := by
  intro moves k t h
  obtain hnone | ⟨e, herr, hinfo⟩ := stepKeeps_errRegistersAgree.run_from_reset (.inl ⟨rfl, rfl⟩) h
  · exact .inl hnone
  · cases e with
    | invalidKeyLength => exact .inr (.inl ⟨herr, hinfo⟩)
    | invalidTagBufferLength => exact .inr (.inr ⟨herr, hinfo⟩)

/-! ## TAGREG is zero whenever `phase` is IDLE (R33) -/

/-- `TAGREG` is zero outside `CMP` and `ZER`, and no `START` can leave these two phases, because the engine is busy in
every phase but `IDLE`. -/
structure TagregGuarded (s : State) : Prop where
  busy : s.phase ≠ phaseIdle → s.status.busy = true
  zeroed : TagregZeroed s

namespace TagregGuarded

variable {s t : State} {c : BitVec 4}

theorem tagreg_at (hs : TagregGuarded s) (hp : s.phase = c) (hc : c ≠ phaseCmp ∧ c ≠ phaseZer) :
    s.tagreg = Bytes8.zero := by
  subst hp
  exact hs.zeroed hc.1 hc.2

theorem busy_at (hs : TagregGuarded s) (hp : s.phase = c) (hc : c ≠ phaseIdle) : s.status.busy = true := by
  subst hp
  exact hs.busy hc

theorem phase_of_not_busy (hs : TagregGuarded s) (hb : s.status.busy = false) : s.phase = phaseIdle := by
  by_contra hne
  exact Bool.false_ne_true (hb.symm.trans (hs.busy hne))

/-- In `IDLE` the guard says no more than that `TAGREG` is zero. -/
theorem of_idle (hp : t.phase = phaseIdle) (h : t.tagreg = Bytes8.zero) : TagregGuarded t :=
  ⟨fun hne => absurd hp hne, fun _ _ => h⟩

/-- Between `CHK` and `OUT`, leaving `busy` and `TAGREG` alone keeps the guard. -/
theorem of_unchanged (hs : TagregGuarded s) (hp : s.phase = c)
    (hc : c ≠ phaseIdle ∧ c ≠ phaseCmp ∧ c ≠ phaseZer) (hb : t.status.busy = s.status.busy)
    (ht : t.tagreg = s.tagreg) : TagregGuarded t :=
  ⟨fun _ => hb.trans (hs.busy_at hp hc.1), fun _ _ => ht.trans (hs.tagreg_at hp hc.2)⟩

/-- A uop keeps the guard: a uop before `OUT` runs with `TAGREG` zero and leaves it so, `OUT` fills `TAGREG` only on the
way to `CMP`, `CMP` goes to `ZER`, and `ZER` zeroes `TAGREG`. -/
theorem of_uop {i : Instr} (hs : TagregGuarded s) (hi : decodeUop s.phase = .ok i) (h : exec i s = .next t) :
    TagregGuarded t := by
  have hp {c : BitVec 4} (hc : encode 0 i = .uop c) : s.phase = c :=
    Encoded.uop.inj ((encode_of_decodeUop hi 0).symm.trans hc)
  cases i with
  | computeTag => cases encode_of_decodeUop hi 0
  | verifyTag => cases encode_of_decodeUop hi 0
  | idle =>
    obtain rfl := execIdle_eq_next.1 h
    exact of_idle rfl (hs.tagreg_at (hp rfl) (by decide))
  | chk =>
    obtain ⟨_, _, ⟨_, rfl⟩ | ⟨_, _, rfl⟩⟩ := execChk_eq_next.1 h
    · exact hs.of_unchanged (hp rfl) (by decide) rfl rfl
    · exact of_idle rfl (hs.tagreg_at (hp rfl) (by decide))
  | init =>
    obtain ⟨_, _, _, rfl⟩ := execInit_eq_next.1 h
    exact hs.of_unchanged (hp rfl) (by decide) rfl rfl
  | cmpr =>
    obtain ⟨_, _, _, _, _, _, _, rfl⟩ := execCmpr_eq_next.1 h
    exact hs.of_unchanged (hp rfl) (by decide) rfl rfl
  | tail =>
    obtain ⟨_, _, _, _, _, _, rfl⟩ := execTail_eq_next.1 h
    exact hs.of_unchanged (hp rfl) (by decide) rfl rfl
  | fin =>
    obtain ⟨_, _, rfl⟩ := execFin_eq_next.1 h
    exact hs.of_unchanged (hp rfl) (by decide) rfl rfl
  | out =>
    obtain ⟨_, _, _, _, ⟨_, _, rfl⟩ | ⟨_, rfl⟩⟩ := execOut_eq_next.1 h
    · exact of_idle rfl (hs.tagreg_at (hp rfl) (by decide))
    · exact ⟨fun _ => hs.busy_at (hp rfl) (by decide), fun hcmp => absurd rfl hcmp⟩
  | cmp =>
    obtain ⟨_, _, rfl⟩ := execCmp_eq_next.1 h
    exact ⟨fun _ => hs.busy_at (hp rfl) (by decide), fun _ hzer => absurd rfl hzer⟩
  | zer =>
    obtain rfl := execZer_eq_next.1 h
    exact of_idle rfl rfl

/-- `START` comes only while the engine is not busy, where `TAGREG` is zero. -/
theorem of_start (hs : TagregGuarded s) (hb : s.status.busy = false) (l : Latched) : TagregGuarded (started l s) :=
  ⟨fun _ => rfl, fun _ _ => hs.tagreg_at (hs.phase_of_not_busy hb) (by decide)⟩

theorem stepKeeps : StepKeeps TagregGuarded where
  pending _ hs := ⟨hs.busy, hs.zeroed⟩
  buffer sp _ hs _ _ := ⟨by simpa using hs.busy, by simpa [TagregZeroed] using hs.zeroed⟩
  reset _ := of_idle rfl rfl
  start l hs hb _ := hs.of_start hb l
  uop := of_uop

end TagregGuarded

/-- Settles O47: `TAGREG` is filled only on the way to `CMP`, zeroed on the way out of `ZER`, and the engine is busy in
between, so that no `START` comes before it is zeroed. -/
theorem tagregZeroWheneverIdle : Obligations.TagregZeroWheneverIdle := by
  intro moves k t h hidle
  have hguard := TagregGuarded.stepKeeps.run_from_reset (.of_idle rfl rfl) h
  have hzero : t.tagreg = Bytes8.zero := hguard.tagreg_at hidle (by decide)
  exact ⟨hzero, by rw [dbgTagreg, hzero]; decide⟩

end Sys2Proof.Machine

/-! The two memory accesses of the engine, `MemRead` and `MemWrite` (20_memory.md R54, R55). -/

namespace Sys2Proof.Machine

/-- Settles O32: inside the buffer the read succeeds with the cells from `a` up; outside it the bounds check refuses. -/
theorem memReadInsideItsBuffer : Obligations.MemReadInsideItsBuffer := by
  intro s l sp a n hl
  refine ⟨fun hin => ?_, memRead_outside hl⟩
  exact ⟨_, memRead_inside hl hin, Memory.readBytes_length _ n a, fun j => Memory.readBytes_getElem? _ n a j⟩

/-- A `MemWrite` other than the one R55 defines is refused by name. -/
theorem memWrite_not_defined {sp : Space} {a n : Nat} {bs : List Byte} {s : State} {l : Latched}
    (hl : s.latched = some l)
    (h : ¬ (sp = .tag ∧ a = 0 ∧ n = 8 ∧ bs.length = 8 ∧ l.tagLen = 8 ∧ l.op = .computeTag)) :
    memWrite sp a n bs s = .error (.refused .writeNotDefined) := by
  simp only [memWrite, readLatched, hl, if_neg h]

/-- The bytes written to a buffer are read back at their addresses. -/
theorem Buffer.read_writeBytes_inside {b : Buffer} (hb : b.wf = true) (a : Nat) (bs : List Byte) {j : Nat}
    (hj : j < bs.length) : bs[j]? = some ((b.writeBytes a bs).read (a + j)) := by
  have hin : a ≤ a + j ∧ a + j < a + bs.length := by omega
  rw [Buffer.read_writeBytes hb, if_pos hin, Nat.add_sub_cancel_left, List.getD_eq_getElem _ _ hj,
    List.getElem?_eq_getElem hj]

/-- A write leaves every byte from its end up. -/
theorem Buffer.read_writeBytes_above {b : Buffer} (hb : b.wf = true) (a : Nat) (bs : List Byte) {c : Nat}
    (hc : a + bs.length ≤ c) : (b.writeBytes a bs).read c = b.read c := by
  rw [Buffer.read_writeBytes hb, if_neg fun hin => Nat.not_lt.2 hc hin.2]

/-- Settles O33: the defined write puts the eight bytes at `TAG[0..7]` and leaves the rest; every other is refused. -/
theorem memWriteIsTheTagOnly : Obligations.MemWriteIsTheTagOnly := by
  intro s l sp a n bs hl hwf
  refine ⟨fun hdef => ?_, memWrite_not_defined hl⟩
  have hwrite := memWrite_eq_ok.2 ⟨l, hl, hdef, rfl⟩
  obtain ⟨-, rfl, -, hlen, -, -⟩ := hdef
  refine ⟨s.tag.writeBytes 0 bs, hwrite, Buffer.writeBytes_size .., fun j hj => ?_, fun x hx => ?_⟩
  · simpa using Buffer.read_writeBytes_inside hwf 0 bs (hlen ▸ hj)
  · exact Buffer.read_writeBytes_above hwf 0 bs (by omega)

end Sys2Proof.Machine

/-! The encoding: the places of a packed descriptor's fields, the opcode map of both formats, and the reserved codes
(30_encoding.md R81, R84, R85, R86). -/

namespace Sys2Proof

/-! ## The places of a descriptor's fields (R81) -/

/-- A descriptor in nested form: a field, and above it, one field width up, the fields after it. -/
theorem Descriptor.pack_eq_nested (lenW : Nat) (o : BitVec 8) (k t m : Nat) :
    Descriptor.pack lenW ⟨o, k, t, m⟩ = 2 ^ 8 * (2 ^ lenW * (2 ^ lenW * m + t) + k) + o.toNat := by
  simp only [Descriptor.pack]
  ring

/-- What stands above the opcode. -/
theorem Descriptor.pack_div_opcode (lenW : Nat) (o : BitVec 8) (k t m : Nat) :
    Descriptor.pack lenW ⟨o, k, t, m⟩ / 2 ^ 8 = 2 ^ lenW * (2 ^ lenW * m + t) + k := by
  rw [pack_eq_nested, Nat.mul_add_div (by decide), Nat.div_eq_of_lt o.isLt, Nat.add_zero]

/-- What stands above `key_len`. -/
theorem Descriptor.pack_div_keyLen {lenW k : Nat} (o : BitVec 8) (t m : Nat) (hk : k < 2 ^ lenW) :
    Descriptor.pack lenW ⟨o, k, t, m⟩ / 2 ^ (8 + lenW) = 2 ^ lenW * m + t := by
  rw [Nat.pow_add, ← Nat.div_div_eq_div_mul, pack_div_opcode, Nat.mul_add_div (Nat.two_pow_pos lenW),
    Nat.div_eq_of_lt hk, Nat.add_zero]

/-- What stands above `tag_len`. -/
theorem Descriptor.pack_div_tagLen {lenW k t : Nat} (o : BitVec 8) (m : Nat) (hk : k < 2 ^ lenW) (ht : t < 2 ^ lenW) :
    Descriptor.pack lenW ⟨o, k, t, m⟩ / 2 ^ (8 + 2 * lenW) = m := by
  rw [Nat.two_mul, ← Nat.add_assoc, Nat.pow_add, ← Nat.div_div_eq_div_mul, pack_div_keyLen o t m hk,
    Nat.mul_add_div (Nat.two_pow_pos lenW), Nat.div_eq_of_lt ht, Nat.add_zero]

/-- Settles O5: above each field stand the fields after it, and the field is the remainder modulo its own width. -/
theorem descriptorFieldPlaces : Obligations.DescriptorFieldPlaces := by
  intro lenW o k t m hk ht hm
  refine ⟨?opcode, ?keyLen, ?tagLen, ?msgLen, Laws.EncodedWidth.pack_lt o hk ht hm⟩
  case opcode => rw [Descriptor.pack_eq_nested, Nat.mul_add_mod, Nat.mod_eq_of_lt o.isLt]
  case keyLen => rw [Descriptor.pack_div_opcode, Nat.mul_add_mod, Nat.mod_eq_of_lt hk]
  case tagLen => rw [Descriptor.pack_div_keyLen o t m hk, Nat.mul_add_mod, Nat.mod_eq_of_lt ht]
  case msgLen => rw [Descriptor.pack_div_tagLen o m hk ht, Nat.mod_eq_of_lt hm]

/-! ## The two decoders (R84, R85, R86) -/

/-- Settles O1: each code selects its branch of a decoder, and a command's lengths are the descriptor's own. -/
theorem opcodeMapOfBothFormats : Obligations.OpcodeMapOfBothFormats :=
  ⟨rfl, rfl, rfl, rfl, rfl, rfl, rfl, rfl, rfl, fun _ _ _ => ⟨rfl, rfl⟩⟩

/-- An opcode above the two commands is rejected by name (R85). -/
theorem decodeDescriptor_reserved {d : Descriptor} (h : 2 ≤ d.opcode.toNat) :
    decodeDescriptor d = .error (.reservedOpcode d.opcode) := by
  unfold decodeDescriptor
  split
  case h_3 => rfl
  all_goals omega

/-- A uop code above the nine uops is rejected by name (R86). -/
theorem decodeUop_reserved {c : BitVec 4} (h : 9 ≤ c.toNat) : decodeUop c = .error (.reservedUop c) := by
  unfold decodeUop
  split
  case h_10 => rfl
  all_goals omega

end Sys2Proof

namespace Sys2Proof.Machine

/-! ## The step on a reserved code (R85, R86) -/

/-- With no host move before it, the engine fetches the uop of `phase` (R25). -/
theorem fetch_uop {s : State} (hp : s.pending = []) : fetch s = dispatchDecoded (decodeUop s.phase) s := by
  simp only [fetch, hp, fetchUop]

/-- A descriptor the host writes is fetched as its command, with the rest of the moves still to come (R31). -/
theorem fetch_writeDesc {s : State} {d : Descriptor} {rest : List HostMove} (hp : s.pending = .writeDesc d :: rest) :
    fetch s = dispatchDecoded (decodeDescriptor d) (s.setPending rest) := by
  simp only [fetch, hp]

/-- Settles O2: the decoder rejects a reserved code by name, and the step refuses what the decoder rejects. -/
theorem reservedCodesRefusedByStep : Obligations.ReservedCodesRefusedByStep := by
  refine ⟨fun s d rest hd hp => ?opcode, fun s hphase hp => ?phase⟩
  case opcode =>
    have hfetch := fetch_writeDesc hp
    rw [decodeDescriptor_reserved hd] at hfetch
    exact step_of_fetch_settled hfetch
  case phase =>
    have hfetch := fetch_uop hp
    rw [decodeUop_reserved hphase] at hfetch
    exact step_of_fetch_settled hfetch

end Sys2Proof.Machine

/-! The precondition check, `IDLE`, and the successor of every uop (40_commands.md R104, R106, R107, R108). -/

namespace Sys2Proof.Machine

/-! ## IDLE (R106) -/

theorem State.setPhase_eq_self {s : State} {c : BitVec 4} (h : s.phase = c) : s.setPhase c = s := by
  subst h
  rfl

/-- Settles O16: `phase` already holds the code that `IDLE` writes, and the invariant ties `busy` and `TAGREG` to it. -/
theorem idleChangesNothing : Obligations.IdleChangesNothing := by
  intro s hidle
  refine ⟨execIdle_eq_next.2 (State.setPhase_eq_self hidle).symm, ?_⟩
  rintro ⟨-, ⟨-, hbusy⟩, -, hzero, -⟩
  have hnotBusy : ¬ s.status.busy = true := fun hb => hbusy.1 hb hidle
  exact ⟨Bool.eq_false_iff.2 hnotBusy, hzero (by rw [hidle]; decide) (by rw [hidle]; decide)⟩

/-! ## The error the lengths name (R107, R108) -/

section
variable {p : Config.ErrPriority} {l : Latched}

theorem chkError_eq_none_iff_lengths :
    chkError p l = none ↔ l.keyLen = 16 ∧ (l.op = .computeTag → l.tagLen = 8) := by
  rw [chkError_eq_none, keyBad_eq_false, tagBad_eq_false]

theorem chkError_keyOnly (hk : l.keyLen ≠ 16) (ht : l.op = .computeTag → l.tagLen = 8) :
    chkError p l = some .invalidKeyLength := by
  have htag : tagBad l = false := tagBad_eq_false.2 ht
  simp [chkError, keyBad, hk, htag]

theorem chkError_tagOnly (hk : l.keyLen = 16) (ho : l.op = .computeTag) (ht : l.tagLen ≠ 8) :
    chkError p l = some .invalidTagBufferLength := by
  simp [chkError, keyBad, tagBad, hk, ho, ht]

theorem chkError_both (hk : l.keyLen ≠ 16) (ho : l.op = .computeTag) (ht : l.tagLen ≠ 8) :
    chkError p l = some (bothWrong p) := by
  simp [chkError, keyBad, tagBad, hk, ho, ht]

end

/-! ## CHK (R107, R204) -/

section
variable {s : State} {l : Latched} (hl : s.latched = some l)
include hl

theorem exec_chk_passes (h : chkError Config.errPriority l = none) : exec .chk s = .next (s.setPhase phaseInit) :=
  execChk_eq_next.2 ⟨l, hl, .inl ⟨h, rfl⟩⟩

theorem exec_chk_raises {e : Err} (h : chkError Config.errPriority l = some e) : exec .chk s = .next (raise e s) :=
  execChk_eq_next.2 ⟨l, hl, .inr ⟨e, h, rfl⟩⟩

end

/-- Where the state words and `widx` hold no value, taking an error writes STATUS, ERRINFO and `phase` only (R204). -/
theorem raise_of_unspec {s : State} (hv : s.v = none) (hw : s.widx = none) (e : Err) :
    raise e s = { s with status := ⟨false, true, e.code, false⟩, errinfo := e.info, phase := 0x0 } := by
  cases s
  cases hv
  cases hw
  rfl

/-- Settles O12: the error `CHK` finds is the one the lengths name, and taking it writes no more than R204 lists. -/
theorem chkPassesOrRaises : Obligations.ChkPassesOrRaises := by
  intro s l hl
  refine ⟨fun hk ht => exec_chk_passes hl (chkError_eq_none_iff_lengths.2 ⟨hk, ht⟩), fun hv hw => ?_⟩
  have hraise {e : Err} (he : chkError Config.errPriority l = some e) : exec .chk s =
      .next { s with status := ⟨false, true, e.code, false⟩, errinfo := e.info, phase := 0x0 } :=
    raise_of_unspec hv hw e ▸ exec_chk_raises hl he
  refine ⟨fun hk ht => hraise (chkError_keyOnly hk ht), fun hk ho ht => hraise (chkError_tagOnly hk ho ht),
    fun hk ho ht => ?_⟩
  obtain ⟨e, he⟩ : ∃ e, chkError Config.errPriority l = some e := ⟨_, chkError_both hk ho ht⟩
  cases e with
  | invalidKeyLength => exact .inl (hraise he)
  | invalidTagBufferLength => exact .inr (hraise he)

/-- Settles O13: with both lengths wrong `CHK` takes the error that ERR_PRIORITY, whichever value it has, puts first. -/
theorem chkBothWrongFollowsPriority : Obligations.ChkBothWrongFollowsPriority := by
  intro s k t m hl hk ht hv hw
  rw [exec_chk_raises hl (chkError_both hk rfl ht), raise_of_unspec hv hw]
  cases Config.errPriority with
  | tagFirst => rfl
  | keyFirst => rfl

/-! ## The successor of every uop (R104) -/

/-- Ending a command from whatever state ends it as R109 says. -/
theorem commandEnded_endCommand (s : State) : CommandEnded (endCommand s) := ⟨rfl, rfl, rfl, rfl, rfl⟩

/-- Taking an error ends the command as R109 says. -/
theorem commandEnded_raise (e : Err) (s : State) : CommandEnded (raise e s) := ⟨rfl, rfl, rfl, rfl, rfl⟩

theorem Err.code_eq (e : Err) : e.code = 1 ∨ e.code = 2 := by
  cases e with
  | invalidKeyLength => exact .inl rfl
  | invalidTagBufferLength => exact .inr rfl

/-- Settles O38: each uop's next state says where it goes, and the ends of a command are `endCommand` and `raise`. -/
theorem successorOfEachUop : Obligations.SuccessorOfEachUop := by
  intro i s t h
  cases i with
  | computeTag => obtain ⟨_, _, rfl⟩ := execComputeTag_eq_next.1 h; rfl
  | verifyTag => obtain ⟨_, _, rfl⟩ := execVerifyTag_eq_next.1 h; rfl
  | idle => obtain rfl := execIdle_eq_next.1 h; rfl
  | chk =>
    obtain ⟨l, hl, hcases⟩ := execChk_eq_next.1 h
    refine ⟨l, hl, ?_⟩
    obtain ⟨hnone, rfl⟩ | ⟨e, he, rfl⟩ := hcases
    · rw [if_pos (chkError_eq_none_iff_lengths.1 hnone)]
      rfl
    · rw [if_neg fun hright => absurd (chkError_eq_none_iff_lengths.2 hright) (he ▸ Option.some_ne_none e)]
      exact ⟨commandEnded_raise e s, e.code_eq⟩
  | init => obtain ⟨l, hl, _, rfl⟩ := execInit_eq_next.1 h; exact ⟨l, hl, rfl, rfl⟩
  | cmpr => obtain ⟨l, w, _, hl, hw, _, _, rfl⟩ := execCmpr_eq_next.1 h; exact ⟨l, w, hl, hw, rfl, rfl⟩
  | tail => obtain ⟨_, _, _, _, _, _, rfl⟩ := execTail_eq_next.1 h; rfl
  | fin => obtain ⟨_, _, rfl⟩ := execFin_eq_next.1 h; rfl
  | out =>
    obtain ⟨l, _, hl, _, ⟨ho, _, rfl⟩ | ⟨ho, rfl⟩⟩ := execOut_eq_next.1 h
    · exact ⟨l, hl, by rw [if_pos ho]; exact commandEnded_endCommand _⟩
    · exact ⟨l, hl, by simp [ho, phaseCmp]⟩
  | cmp => obtain ⟨_, _, rfl⟩ := execCmp_eq_next.1 h; rfl
  | zer => obtain rfl := execZer_eq_next.1 h; exact commandEnded_endCommand _

end Sys2Proof.Machine

/-! From reset no uop reads a register that holds no value (40_commands.md R113). -/

namespace Sys2Proof.Machine

/-! ## Outcomes that are no fault -/

/-- The outcome is not a fault: a next state, or a refusal by name. -/
def Faultless (o : Host.Outcome State Fault Refusal) : Prop := ∀ f, o ≠ .fault f

namespace Faultless

theorem next (t : State) : Faultless (.next t) := fun _ h => nomatch h

theorem refused (r : Refusal) : Faultless (.refused r) := fun _ h => nomatch h

section
variable {s : State} {l : Latched} {w : Nat} {v : Lanes}

/-- Going on after a read of a descriptor that is latched. -/
theorem readLatched {k : Latched → Host.Outcome State Fault Refusal} (hl : s.latched = some l)
    (hk : Faultless (k l)) : Faultless (andThen (Machine.readLatched s) k) := by
  rwa [readLatched_eq_ok.2 hl, andThen_ok]

/-- Going on after a read of `widx` that holds a value. -/
theorem readWidx {k : Nat → Host.Outcome State Fault Refusal} (hw : s.widx = some w)
    (hk : Faultless (k w)) : Faultless (andThen (Machine.readWidx s) k) := by
  rwa [readWidx_eq_ok.2 hw, andThen_ok]

/-- Going on after a read of state words that hold a value. -/
theorem readLanes {k : Lanes → Host.Outcome State Fault Refusal} (hv : s.v = some v)
    (hk : Faultless (k v)) : Faultless (andThen (Machine.readLanes s) k) := by
  rwa [readLanes_eq_ok.2 hv, andThen_ok]

/-- Going on after a read of a buffer: with a descriptor latched, a read outside the buffer is a refusal. -/
theorem memRead {sp : Space} {a n : Nat} {k : List Byte → Host.Outcome State Fault Refusal} (hl : s.latched = some l)
    (hk : ∀ bs, Faultless (k bs)) : Faultless (andThen (Machine.memRead sp a n s) k) := by
  obtain hout | hin := Nat.lt_or_ge (l.len sp) (a + n)
  · rw [memRead_outside hl hout]
    exact refused _
  · rw [memRead_inside hl hin]
    exact hk _

/-- Going on after a write: with a descriptor latched, a write that is not defined is a refusal. -/
theorem memWrite {sp : Space} {a n : Nat} {bs : List Byte} {k : State → Host.Outcome State Fault Refusal}
    (hl : s.latched = some l) (hk : ∀ t, Faultless (k t)) : Faultless (andThen (Machine.memWrite sp a n bs s) k) := by
  by_cases hdef : sp = .tag ∧ a = 0 ∧ n = 8 ∧ bs.length = 8 ∧ l.tagLen = 8 ∧ l.op = .computeTag
  · rw [memWrite_eq_ok.2 ⟨l, hl, hdef, rfl⟩]
    exact hk _
  · rw [memWrite_not_defined hl hdef]
    exact refused _

end

theorem start (l : Latched) (s : State) : Faultless (Machine.start l s) := by
  unfold Machine.start
  split
  · exact refused _
  · split
    · exact next _
    · exact refused _

/-! The host's own moves read no register that can hold no value. -/

theorem hostProvide (sp : Space) (bytes : List Byte) (s : State) : Faultless (Machine.hostProvide sp bytes s) := by
  unfold Machine.hostProvide
  split
  · exact refused _
  · exact next _

theorem hostWriteByte (sp : Space) (a : Nat) (b : Byte) (s : State) :
    Faultless (Machine.hostWriteByte sp a b s) := by
  unfold Machine.hostWriteByte
  split
  · exact refused _
  · split
    · exact next _
    · exact refused _

theorem hostReadTag (a : Nat) (s : State) : Faultless (Machine.hostReadTag a s) := by
  unfold Machine.hostReadTag hostTagByte
  split
  · exact refused _
  · split
    · exact next _
    · exact refused _

end Faultless

/-! ## The registers each uop reads hold a value -/

/-- A code that spells a uop is the code the uop is encoded as. -/
theorem code_of_decodeUop {c c' : BitVec 4} {i : Instr} (hi : decodeUop c = .ok i) (hc : encode 0 i = .uop c') :
    c = c' :=
  Encoded.uop.inj ((encode_of_decodeUop hi 0).symm.trans hc)

/-- `phase` holds one of the nine codes; past `IDLE` a descriptor is latched; and before a uop that reads the state words
both they and `widx` hold a value (R22, R27, R28, R113). -/
structure OperandsHeld (s : State) : Prop where
  legal : s.phase.toNat ≤ 8
  latched : s.phase ≠ phaseIdle → ∃ l, s.latched = some l
  lanes : LanesExpected s.phase → ∃ v, s.v = some v
  widx : LanesExpected s.phase → ∃ w, s.widx = some w

namespace OperandsHeld

variable {s t : State} {c : BitVec 4} {i : Instr}

theorem latched_at (hs : OperandsHeld s) (hp : s.phase = c) (hc : c ≠ phaseIdle) : ∃ l, s.latched = some l := by
  subst hp
  exact hs.latched hc

theorem lanes_at (hs : OperandsHeld s) (hp : s.phase = c) (hc : LanesExpected c) : ∃ v, s.v = some v := by
  subst hp
  exact hs.lanes hc

theorem widx_at (hs : OperandsHeld s) (hp : s.phase = c) (hc : LanesExpected c) : ∃ w, s.widx = some w := by
  subst hp
  exact hs.widx hc

/-- `IDLE` reads no register. -/
theorem of_idle (hp : t.phase = phaseIdle) : OperandsHeld t where
  legal := by rw [hp]; decide
  latched hne := absurd hp hne
  lanes hexp := absurd (hp ▸ hexp) (by decide)
  widx hexp := absurd (hp ▸ hexp) (by decide)

/-- `CHK`, `INIT`, `CMP` and `ZER` read no more than the descriptor. -/
theorem of_latched {l : Latched} (hp : t.phase = c) (hc : c.toNat ≤ 8 ∧ ¬ LanesExpected c)
    (hl : t.latched = some l) : OperandsHeld t where
  legal := hp ▸ hc.1
  latched _ := ⟨l, hl⟩
  lanes hexp := absurd (hp ▸ hexp) hc.2
  widx hexp := absurd (hp ▸ hexp) hc.2

/-- Where every register holds a value, any uop can run. -/
theorem of_all {l : Latched} {v : Lanes} {w : Nat} (hc : t.phase.toNat ≤ 8) (hl : t.latched = some l)
    (hv : t.v = some v) (hw : t.widx = some w) : OperandsHeld t :=
  ⟨hc, fun _ => ⟨l, hl⟩, fun _ => ⟨v, hv⟩, fun _ => ⟨w, hw⟩⟩

/-- A uop leaves a value in every register its successor reads (R104). -/
theorem of_uop (hs : OperandsHeld s) (hi : decodeUop s.phase = .ok i) (h : exec i s = .next t) : OperandsHeld t := by
  have hp {c : BitVec 4} (hc : encode 0 i = .uop c) : s.phase = c := code_of_decodeUop hi hc
  cases i with
  | computeTag => cases encode_of_decodeUop hi 0
  | verifyTag => cases encode_of_decodeUop hi 0
  | idle =>
    obtain rfl := execIdle_eq_next.1 h
    exact of_idle rfl
  | chk =>
    obtain ⟨l, hl, ⟨_, rfl⟩ | ⟨_, _, rfl⟩⟩ := execChk_eq_next.1 h
    · exact of_latched (c := phaseInit) rfl (by decide) hl
    · exact of_idle rfl
  | init =>
    obtain ⟨l, hl, _, rfl⟩ := execInit_eq_next.1 h
    exact of_all (by simp only [State.setPhase_phase]; split <;> decide) hl rfl rfl
  | cmpr =>
    obtain ⟨l, _, _, hl, _, _, _, rfl⟩ := execCmpr_eq_next.1 h
    exact of_all (by simp only [State.setPhase_phase]; split <;> decide) hl rfl rfl
  | tail =>
    obtain ⟨l, w, _, hl, hw, _, rfl⟩ := execTail_eq_next.1 h
    exact of_all (by decide : phaseFin.toNat ≤ 8) hl rfl hw
  | fin =>
    obtain ⟨l, hl⟩ := hs.latched_at (hp rfl) (by decide)
    obtain ⟨w, hw⟩ := hs.widx_at (hp rfl) (by decide)
    obtain ⟨_, _, rfl⟩ := execFin_eq_next.1 h
    exact of_all (by decide : phaseOut.toNat ≤ 8) hl rfl hw
  | out =>
    obtain ⟨l, _, hl, _, ⟨_, _, rfl⟩ | ⟨_, rfl⟩⟩ := execOut_eq_next.1 h
    · exact of_idle rfl
    · exact of_latched (c := phaseCmp) rfl (by decide) hl
  | cmp =>
    obtain ⟨l, hl, rfl⟩ := execCmp_eq_next.1 h
    exact of_latched (c := phaseZer) rfl (by decide) hl
  | zer =>
    obtain rfl := execZer_eq_next.1 h
    exact of_idle rfl

theorem stepKeeps : StepKeeps OperandsHeld where
  pending _ hs := ⟨hs.legal, hs.latched, hs.lanes, hs.widx⟩
  buffer sp _ hs _ _ := ⟨by simpa using hs.legal, by simpa using hs.latched, by simpa [LanesExpected] using hs.lanes,
    by simpa [LanesExpected] using hs.widx⟩
  reset _ := of_idle rfl
  start _ _ _ _ := of_latched (c := phaseChk) rfl (by decide) rfl
  uop := of_uop

/-- A uop reads only registers that hold a value. -/
theorem exec_faultless (hs : OperandsHeld s) (hi : decodeUop s.phase = .ok i) : Faultless (exec i s) := by
  have hp {c : BitVec 4} (hc : encode 0 i = .uop c) : s.phase = c := code_of_decodeUop hi hc
  have hlatched {c : BitVec 4} (hc : encode 0 i = .uop c) (hne : c ≠ phaseIdle) : ∃ l, s.latched = some l :=
    hs.latched_at (hp hc) hne
  cases i with
  | computeTag => cases encode_of_decodeUop hi 0
  | verifyTag => cases encode_of_decodeUop hi 0
  | idle => exact .next _
  | chk =>
    obtain ⟨l, hl⟩ := hlatched rfl (by decide)
    refine Faultless.readLatched hl ?_
    split
    · exact .next _
    · exact .next _
  | init =>
    obtain ⟨l, hl⟩ := hlatched rfl (by decide)
    exact .readLatched hl (.memRead hl fun _ => .memRead hl fun _ => .next _)
  | cmpr =>
    obtain ⟨l, hl⟩ := hlatched rfl (by decide)
    obtain ⟨w, hw⟩ := hs.widx_at (hp rfl) (by decide)
    obtain ⟨v, hv⟩ := hs.lanes_at (hp rfl) (by decide)
    exact .readLatched hl (.readWidx hw (.memRead hl fun _ => .readLanes hv (.next _)))
  | tail =>
    obtain ⟨l, hl⟩ := hlatched rfl (by decide)
    obtain ⟨w, hw⟩ := hs.widx_at (hp rfl) (by decide)
    obtain ⟨v, hv⟩ := hs.lanes_at (hp rfl) (by decide)
    exact .readLatched hl (.readWidx hw (.memRead hl fun _ => .readLanes hv (.next _)))
  | fin =>
    obtain ⟨v, hv⟩ := hs.lanes_at (hp rfl) (by decide)
    exact .readLanes hv (.next _)
  | out =>
    obtain ⟨l, hl⟩ := hlatched rfl (by decide)
    obtain ⟨v, hv⟩ := hs.lanes_at (hp rfl) (by decide)
    refine Faultless.readLatched hl (.readLanes hv ?_)
    split
    · exact .memWrite hl fun _ => .next _
    · exact .next _
  | cmp =>
    obtain ⟨l, hl⟩ := hlatched rfl (by decide)
    refine Faultless.readLatched hl ?_
    split
    · exact .memRead hl fun _ => .next _
    · exact .next _
  | zer => exact .next _

end OperandsHeld

/-! ## Steps and runs -/

/-- A step that runs what a decoder reads is no fault when no instruction it can read is one. -/
theorem step_faultless_of_dispatch {s u : State} {r : Except DecodeError Instr} (hf : fetch s = dispatchDecoded r u)
    (h : ∀ i, r = .ok i → Faultless (exec i u)) : Faultless (step s) := by
  cases r with
  | ok i => rw [step_of_fetch_run hf]; exact h i rfl
  | error e => rw [step_of_fetch_settled hf]; exact .refused _

/-- When the host lets the engine run, the engine fetches the uop of `phase`, with the rest of the moves still to come. -/
theorem fetch_letRun {s : State} {rest : List HostMove} (hp : s.pending = .letRun :: rest) :
    fetch s = dispatchDecoded (decodeUop s.phase) (s.setPending rest) := by
  simp only [fetch, hp, fetchUop, State.setPending_phase]

/-- Where every uop finds its operands, no step is a fault, whatever the host moves next. -/
theorem OperandsHeld.step_faultless {s : State} (hs : OperandsHeld s) : Faultless (step s) := by
  have hturn (rest : List HostMove) : OperandsHeld (s.setPending rest) := stepKeeps.pending rest hs
  cases hp : s.pending with
  | nil => exact step_faultless_of_dispatch (fetch_uop hp) fun i hi => hs.exec_faultless hi
  | cons m rest =>
    cases m with
    | letRun => exact step_faultless_of_dispatch (fetch_letRun hp) fun i hi => (hturn rest).exec_faultless hi
    | writeDesc d =>
      refine step_faultless_of_dispatch (fetch_writeDesc hp) fun i hi => ?_
      obtain ⟨l, hl⟩ := exec_of_decodeDescriptor hi
      exact hl _ ▸ .start l _
    | provide sp bytes => simpa only [step, fetch, hp] using Faultless.hostProvide sp bytes _
    | writeByte sp a b => simpa only [step, fetch, hp] using Faultless.hostWriteByte sp a b _
    | readTag a => simpa only [step, fetch, hp] using Faultless.hostReadTag a _
    | reset => simpa only [step, fetch, hp] using Faultless.next _

/-- No run is a fault when every step keeps a predicate that rules out a fault of the next step. -/
theorem StepKeeps.run_faultless {P : State → Prop} (hP : StepKeeps P) (hstep : ∀ {s}, P s → Faultless (Machine.step s)) :
    ∀ {k : Nat} {s : State}, P s → Faultless (Host.Core.run Sys2Proof.core k s)
  | 0, s, _ => .next s
  | k + 1, s, hs => by
    simp only [Host.Core.run, show Sys2Proof.core.step s = Machine.step s from rfl]
    cases ho : Machine.step s with
    | next t => exact hP.run_faultless hstep (hP.step hs ho)
    | fault f => exact absurd ho (hstep hs f)
    | refused r => exact .refused r

/-- Settles O46: reset is in `IDLE`, every step keeps the operands of the next uop held, and so no step faults. -/
theorem noUnspecReadFromReset : Obligations.NoUnspecReadFromReset := by
  intro moves k
  have hreset : OperandsHeld State.reset := .of_idle rfl
  exact ⟨OperandsHeld.stepKeeps.run_faultless OperandsHeld.step_faultless (OperandsHeld.stepKeeps.pending moves hreset),
    fun t h => (OperandsHeld.stepKeeps.run_from_reset hreset h).legal⟩

end Sys2Proof.Machine

/-! A command from `CHK` to its end: the uops it executes (40_commands.md R105), and the tag it computes or verifies (R110,
R111). -/

namespace Sys2Proof.Machine

/-! ## Runs with the uops they execute -/

/-- From `s` the next steps succeed, have the phases `cs` before them, and lead to `t`. -/
def RunsThrough (cs : List (BitVec 4)) (s t : State) : Prop :=
  phaseTrace cs.length s = cs ∧ Host.Core.run Sys2Proof.core cs.length s = .next t

theorem RunsThrough.nil (s : State) : RunsThrough [] s s := ⟨rfl, rfl⟩

theorem RunsThrough.cons {c : BitVec 4} {cs : List (BitVec 4)} {s u t : State} (hc : s.phase = c)
    (hstep : step s = .next u) (h : RunsThrough cs u t) : RunsThrough (c :: cs) s t := by
  obtain ⟨htrace, hrun⟩ := h
  exact ⟨by simp only [List.length_cons, phaseTrace, hstep, htrace, hc], run_cons hstep hrun⟩

/-- With no host move to come, a run goes through the uop of `phase` first. -/
theorem RunsThrough.uop {c : BitVec 4} {i : Instr} {cs : List (BitVec 4)} {s u t : State} (hc : s.phase = c)
    (hpend : s.pending = []) (hi : decodeUop c = .ok i) (hexec : exec i s = .next u) (h : RunsThrough cs u t) :
    RunsThrough (c :: cs) s t :=
  .cons hc ((step_uop hpend (hc ▸ hi)).trans hexec) h

/-! ## Bytes of the key and of the message -/

@[simp] theorem Buffer.length_bytes (b : Buffer) (n : Nat) : (b.bytes n).length = n := b.cells.readBytes_length n 0

/-- The bytes of a buffer from an address up, as a part of its first `n` bytes. -/
theorem Buffer.bytes_drop_take (b : Buffer) {n a k : Nat} (h : a + k ≤ n) :
    ((b.bytes n).drop a).take k = b.cells.readBytes a k := by
  rw [Buffer.bytes, Memory.readBytes_drop_take _ h, Nat.zero_add]

/-- The last bytes of the first `n`. -/
theorem Buffer.bytes_drop (b : Buffer) {n a k : Nat} (h : a + k = n) : (b.bytes n).drop a = b.cells.readBytes a k := by
  rw [← b.bytes_drop_take (Nat.le_of_eq h), List.take_of_length_le]
  rw [List.length_drop, Buffer.length_bytes]
  omega

/-! ## The states a command goes through -/

/-- The state words after `TAIL` (R110): the full words and the tail word of the message absorbed. -/
def messageLanes (K M : List Byte) : Lanes :=
  compress (absorbWords M (keyLanes K) (M.length / 8)) (pack (M.drop (8 * (M.length / 8))) M.length)

theorem sipHash24_eq (K M : List Byte) : sipHash24 K M = enc (xred (finalizeLanes (messageLanes K M))) := rfl

/-- The tag of the command's key and message. -/
def commandTag (l : Latched) (s : State) : Bytes8 := sipHash24 (s.key.bytes 16) (s.msg.bytes l.msgLen)

/-- The state in which `n` full words of the message are absorbed. -/
def absorbed (l : Latched) (s : State) (n : Nat) : State :=
  ((s.setLanes (some (absorbWords (s.msg.bytes l.msgLen) (keyLanes (s.key.bytes 16)) n))).setWidx (some n)).setPhase
    (if n < l.nwords then phaseCmpr else phaseTail)

/-- The state before `FIN`, with the whole message absorbed. -/
def messageAbsorbed (l : Latched) (s : State) : State :=
  ((s.setLanes (some (messageLanes (s.key.bytes 16) (s.msg.bytes l.msgLen)))).setWidx (some l.nwords)).setPhase phaseFin

/-- The state before `OUT`. -/
def finalized (l : Latched) (s : State) : State :=
  ((s.setLanes (some (finalizeLanes (messageLanes (s.key.bytes 16) (s.msg.bytes l.msgLen))))).setWidx
    (some l.nwords)).setPhase phaseOut

/-- The state in which a command with the right lengths has ended: the tag in `TAG`, or the verdict in STATUS and
`TAGREG` zero. -/
def completed (l : Latched) (s : State) : State :=
  match l.op with
  | .computeTag => endCommand (s.setTag (s.tag.writeBytes 0 (commandTag l s).toList))
  | .verifyTag => endCommand ((s.setStatus (s.status.withResult
      (decide (l.tagLen = 8 ∧ s.tag.bytes 8 = (commandTag l s).toList)))).setTagreg Bytes8.zero)

theorem completed_of_computeTag {l : Latched} (ho : l.op = .computeTag) (s : State) :
    completed l s = endCommand (s.setTag (s.tag.writeBytes 0 (commandTag l s).toList)) := by
  rw [completed, ho]

theorem completed_of_verifyTag {l : Latched} (ho : l.op = .verifyTag) (s : State) :
    completed l s = endCommand ((s.setStatus (s.status.withResult
      (decide (l.tagLen = 8 ∧ s.tag.bytes 8 = (commandTag l s).toList)))).setTagreg Bytes8.zero) := by
  rw [completed, ho]

theorem exec_fin_messageAbsorbed (l : Latched) (s : State) :
    exec .fin (messageAbsorbed l s) = .next (finalized l s) :=
  execFin_eq_next.2 ⟨_, rfl, rfl⟩

section
variable {s t : State} {l : Latched} {n : Nat} {cs : List (BitVec 4)} (hl : s.latched = some l)
include hl

theorem exec_init_absorbed (hk : l.keyLen = 16) : exec .init s = .next (absorbed l s 0) := by
  refine execInit_eq_next.2 ⟨l, hl, Nat.le_of_eq hk.symm, ?_⟩
  have hk0 : (s.key.bytes 16).take 8 = s.key.cells.readBytes 0 8 := s.key.bytes_drop_take (a := 0) (by decide)
  have hk1 : ((s.key.bytes 16).drop 8).take 8 = s.key.cells.readBytes 8 8 := s.key.bytes_drop_take (by decide)
  rw [← hk0, ← hk1]
  rfl

/-- `CMPR` with full words left absorbs the next one. -/
theorem exec_cmpr_absorbed (hn : n < l.nwords) : exec .cmpr (absorbed l s n) = .next (absorbed l s (n + 1)) := by
  have hin : 8 * n + 8 ≤ l.msgLen := by
    unfold Latched.nwords at hn
    omega
  refine execCmpr_eq_next.2 ⟨l, n, _, hl, rfl, rfl, hin, ?_⟩
  have hword : messageWord (s.msg.bytes l.msgLen) n = le64 (s.msg.cells.readBytes (8 * n) 8) :=
    congrArg le64 (s.msg.bytes_drop_take hin)
  simp only [absorbed, absorbWords, hword]
  rfl

/-- `TAIL` after the last full word absorbs the leftover bytes and the length. -/
theorem exec_tail_absorbed : exec .tail (absorbed l s l.nwords) = .next (messageAbsorbed l s) := by
  refine execTail_eq_next.2 ⟨l, l.nwords, _, hl, rfl, rfl, ?_⟩
  have hleft : (s.msg.bytes l.msgLen).drop (8 * (l.msgLen / 8)) = s.msg.cells.readBytes (8 * l.nwords) l.left :=
    s.msg.bytes_drop (Nat.div_add_mod l.msgLen 8)
  simp only [messageAbsorbed, messageLanes, Buffer.length_bytes, hleft]
  rfl

/-- The `CMPR`s of the message's remaining full words, one by one (R104). -/
theorem runsThrough_cmpr (hpend : s.pending = []) (h : RunsThrough cs (absorbed l s l.nwords) t) :
    ∀ k n, n + k = l.nwords → RunsThrough (List.replicate k phaseCmpr ++ cs) (absorbed l s n) t
  | 0, n, hn => by
    obtain rfl : n = l.nwords := hn
    exact h
  | k + 1, n, hn => by
    have hlt : n < l.nwords := by omega
    exact .uop (if_pos hlt) hpend rfl (exec_cmpr_absorbed hl hlt) (runsThrough_cmpr hpend h k (n + 1) (by omega))

/-- `OUT` of a COMPUTE_TAG, and `OUT`, `CMP` and `ZER` of a VERIFY_TAG, end the command. -/
theorem runsThrough_out (hpend : s.pending = []) (ht : l.op = .computeTag → l.tagLen = 8) :
    RunsThrough (phaseOut :: if l.op = .verifyTag then [phaseCmp, phaseZer] else []) (finalized l s)
      (completed l s) := by
  cases ho : l.op with
  | computeTag =>
    rw [if_neg nofun, completed_of_computeTag ho, commandTag, sipHash24_eq]
    exact .uop rfl hpend rfl (execOut_eq_next.2 ⟨l, _, hl, rfl, .inl ⟨ho, ht ho, rfl⟩⟩) (.nil _)
  | verifyTag =>
    rw [if_pos rfl, completed_of_verifyTag ho, commandTag, sipHash24_eq]
    exact .uop rfl hpend rfl (execOut_eq_next.2 ⟨l, _, hl, rfl, .inr ⟨ho, rfl⟩⟩)
      (.uop rfl hpend rfl (execCmp_eq_next.2 ⟨l, hl, rfl⟩) (.uop rfl hpend rfl (execZer_eq_next.2 rfl) (.nil _)))

/-- From `CHK` a command with the right lengths executes the uops of its descriptor and ends as the closed form says
(R105, R110, R111). -/
theorem runsThrough_command (hpend : s.pending = []) (hphase : s.phase = phaseChk) (hk : l.keyLen = 16)
    (ht : l.op = .computeTag → l.tagLen = 8) : RunsThrough (uopSequence l) s (completed l s) := by
  have hchk : exec .chk s = .next (s.setPhase phaseInit) :=
    exec_chk_passes hl (chkError_eq_none_iff_lengths.2 ⟨hk, ht⟩)
  have hinit : exec .init (s.setPhase phaseInit) = .next (absorbed l s 0) :=
    exec_init_absorbed (s := s.setPhase phaseInit) hl hk
  have hend : RunsThrough (phaseTail :: phaseFin :: phaseOut ::
      if l.op = .verifyTag then [phaseCmp, phaseZer] else []) (absorbed l s l.nwords) (completed l s) :=
    .uop (if_neg (Nat.lt_irrefl _)) hpend rfl (exec_tail_absorbed hl)
      (.uop rfl hpend rfl (exec_fin_messageAbsorbed l s) (runsThrough_out hl hpend ht))
  rw [uopSequence, if_pos ⟨hk, ht⟩, List.append_assoc, List.append_assoc]
  exact .uop hphase hpend rfl hchk (.uop rfl hpend rfl hinit
    (runsThrough_cmpr hl hpend hend l.nwords 0 (Nat.zero_add _)))

/-- A command whose lengths are wrong executes `CHK` alone, which ends it with an error. -/
theorem runsThrough_error (hpend : s.pending = []) (hphase : s.phase = phaseChk)
    (hbad : ¬ (l.keyLen = 16 ∧ (l.op = .computeTag → l.tagLen = 8))) :
    ∃ e, RunsThrough (uopSequence l) s (raise e s) := by
  obtain ⟨e, he⟩ := Option.ne_none_iff_exists'.1 (mt chkError_eq_none_iff_lengths.1 hbad)
  rw [uopSequence, if_neg hbad]
  exact ⟨e, .uop hphase hpend rfl (exec_chk_raises hl he) (.nil _)⟩

end

/-! ## The uop sequence (R105) -/

/-- A command that completes has ended as R109 says. -/
theorem commandEnded_completed (l : Latched) (s : State) : CommandEnded (completed l s) := by
  cases ho : l.op with
  | computeTag => exact completed_of_computeTag ho s ▸ commandEnded_endCommand _
  | verifyTag => exact completed_of_verifyTag ho s ▸ commandEnded_endCommand _

section
variable {l : Latched}

theorem length_uopSequence_computeTag (hk : l.keyLen = 16) (ho : l.op = .computeTag) (ht : l.tagLen = 8) :
    (uopSequence l).length = l.msgLen / 8 + 5 := by
  simp [uopSequence, hk, ho, ht]

theorem length_uopSequence_verifyTag (hk : l.keyLen = 16) (ho : l.op = .verifyTag) :
    (uopSequence l).length = l.msgLen / 8 + 7 := by
  simp [uopSequence, hk, ho]

theorem length_uopSequence_error (hbad : ¬ (l.keyLen = 16 ∧ (l.op = .computeTag → l.tagLen = 8))) :
    (uopSequence l).length = 1 := by
  rw [uopSequence, if_neg hbad, List.length_singleton]

end

/-- Settles O49: a descriptor with the right lengths leads through its uops to the closed form's end, a wrong one through
`CHK` to an error. -/
theorem uopSequenceOfDescriptor : Obligations.UopSequenceOfDescriptor := by
  intro s l _ hpend hphase hl
  have hend : ∃ t, RunsThrough (uopSequence l) s t ∧ CommandEnded t := by
    by_cases hright : l.keyLen = 16 ∧ (l.op = .computeTag → l.tagLen = 8)
    · exact ⟨_, runsThrough_command hl hpend hphase hright.1 hright.2, commandEnded_completed l s⟩
    · obtain ⟨e, he⟩ := runsThrough_error hl hpend hphase hright
      exact ⟨_, he, commandEnded_raise e s⟩
  obtain ⟨t, ⟨htrace, hrun⟩, hbusy, hdone, hidle, -, -⟩ := hend
  refine ⟨htrace, ⟨t, hrun, hidle, hbusy, hdone⟩, ?_⟩
  split
  next hk =>
    split
    next ho =>
      split
      next ht => exact length_uopSequence_computeTag hk ho ht
      next ht => exact length_uopSequence_error fun hright => ht (hright.2 ho)
    next ho => exact length_uopSequence_verifyTag hk ho
  next hk => exact length_uopSequence_error fun hright => hk hright.1

/-! ## The closed form (R110, R111) -/

/-- A command that the host's last move starts with the right lengths runs to its end. -/
theorem run_writtenDescriptor {s : State} {d : Descriptor} {i : Instr} {l : Latched} {n : Nat}
    (hp : s.pending = [.writeDesc d]) (hd : decodeDescriptor d = .ok i)
    (hstart : exec i (s.setPending []) = .next (started l (s.setPending [])))
    (hk : l.keyLen = 16) (ht : l.op = .computeTag → l.tagLen = 8) (hn : (uopSequence l).length = n) :
    Host.Core.run Sys2Proof.core (n + 1) s = .next (completed l (started l (s.setPending []))) := by
  have hfetch : fetch s = .run i (s.setPending []) := by rw [fetch_writeDesc hp, hd, dispatchDecoded_ok]
  obtain ⟨-, hrun⟩ := runsThrough_command (s := started l (s.setPending [])) rfl rfl rfl hk ht
  exact run_cons ((step_of_fetch_run hfetch).trans hstart) (hn ▸ hrun)

theorem statusWord_started_ended : statusWord Status.started.ended = 0x02 := rfl

/-- STATUS at the end of a comparison, with the verdict in its `result` bit (R29). -/
theorem statusWord_started_verdict (p : Prop) [Decidable p] :
    statusWord (Status.started.withResult (decide p)).ended = if p then 0x12 else 0x02 := by
  by_cases h : p
  · rw [decide_eq_true h, if_pos h]
    rfl
  · rw [decide_eq_false h, if_neg h]
    rfl

/-- Settles O50: the command ends with the closed form's tag written to `TAG[0..7]`, and writes no other buffer byte. -/
theorem computeTagGivesClosedForm : Obligations.ComputeTagGivesClosedForm := by
  intro s L hb hp hkey htag hmsg hwf
  have hstart : exec (.computeTag 16 8 L) (s.setPending []) = .next (started ⟨.computeTag, 16, 8, L⟩ (s.setPending [])) :=
    execComputeTag_eq_next.2 ⟨hb, launchLengths_eq.2 ⟨hkey, htag, hmsg⟩, rfl⟩
  have hrun := run_writtenDescriptor hp rfl hstart rfl (fun _ => rfl) (length_uopSequence_computeTag rfl rfl rfl)
  rw [completed_of_computeTag rfl] at hrun
  refine ⟨_, hrun, fun j hj => ?_, fun a ha => ?_, rfl, rfl, rfl, statusWord_started_ended, rfl, rfl, rfl, rfl⟩
  · have hbyte := Buffer.read_writeBytes_inside hwf 0 (sipHash24 (s.key.bytes 16) (s.msg.bytes L)).toList hj
    rwa [Nat.zero_add] at hbyte
  · exact Buffer.read_writeBytes_above hwf 0 _ ha

/-- Settles O51: the command ends with the verdict of the closed form in STATUS, `TAGREG` zero, and no buffer changed. -/
theorem verifyTagGivesVerdict : Obligations.VerifyTagGivesVerdict := by
  intro s T L hb hp hkey htag hmsg
  have hstart : exec (.verifyTag 16 T L) (s.setPending []) = .next (started ⟨.verifyTag, 16, T, L⟩ (s.setPending [])) :=
    execVerifyTag_eq_next.2 ⟨hb, launchLengths_eq.2 ⟨hkey, htag, hmsg⟩, rfl⟩
  have hrun := run_writtenDescriptor hp rfl hstart rfl nofun (length_uopSequence_verifyTag rfl rfl)
  rw [completed_of_verifyTag rfl] at hrun
  exact ⟨_, hrun, statusWord_started_verdict _, rfl, rfl, rfl, rfl, rfl, rfl, rfl, rfl⟩

end Sys2Proof.Machine

/-! Initialization (41_init.md): the uop `INIT` seeds the four state words from the two key words (R121, R122). -/

namespace Sys2Proof.Machine

/-- The number that bytes read from a memory spell, as a sum over their addresses (R13). -/
theorem Memory.leNat_readBytes (m : Memory) (n : Nat) :
    ∀ a, leNat (m.readBytes a n) = ∑ j ∈ Finset.range n, (m.read (a + j)).toNat * 2 ^ (8 * j) := by
  induction n with
  | zero => exact fun _ => rfl
  | succ n ih =>
    intro a
    have hshift : ∀ j, (m.read (a + (j + 1))).toNat * 2 ^ (8 * (j + 1)) =
        256 * ((m.read (a + 1 + j)).toNat * 2 ^ (8 * j)) := fun j => by
      rw [Nat.add_right_comm a 1 j, Nat.add_assoc]
      ring
    simp only [Memory.readBytes, leNat, ih, Finset.sum_range_succ', hshift, ← Finset.mul_sum]
    simp [Nat.add_comm]

/-- The word of the eight bytes of a buffer from an address up. -/
theorem Buffer.le64_readBytes (b : Buffer) (a : Nat) :
    le64 (b.cells.readBytes a 8) = BitVec.ofNat 64 (b.wordNat a) :=
  congrArg (BitVec.ofNat 64) (b.cells.leNat_readBytes 8 a)

/-- Settles O17: both key words lie inside the latched key length, so `INIT` answers `INITSTATE` of the two sums. -/
theorem initSeedsStateWords : Obligations.InitSeedsStateWords := by
  intro s l hl hk
  refine execInit_eq_next.2 ⟨l, hl, hk, ?_⟩
  rw [Buffer.le64_readBytes, Buffer.le64_readBytes]
  rfl

end Sys2Proof.Machine

/-! The round function (42_round.md): the word operations on numbers and bits (R131, R132, R133), the flat list (R137),
and the inverse of the round (R138). -/

namespace Sys2Proof.Machine

/-! ## The word operations -/

/-- Settles O25: both operations are those of `BitVec`, whose number and bits the library gives. -/
theorem addWrapsAndXorIsBitwise : Obligations.AddWrapsAndXorIsBitwise :=
  fun a b => ⟨BitVec.toNat_add a b, fun _ _ => BitVec.getLsbD_xor⟩

/-- In the model's range a rotation is the library's. -/
theorem rotl64_eq_rotateLeft (a : Word) {n : Nat} (hn : n < 64) : rotl64 a n = a.rotateLeft n := by
  rw [BitVec.rotateLeft_def, Nat.mod_eq_of_lt hn]
  rfl

/-- Bit `i` goes to bit `i + n`, or round the end to bit `i + n - 64`. -/
theorem getLsbD_rotl64 (a : Word) {n i : Nat} (hn : n < 64) (hi : i < 64) :
    (rotl64 a n).getLsbD ((i + n) % 64) = a.getLsbD i := by
  rw [rotl64_eq_rotateLeft a hn, BitVec.getLsbD_rotateLeft, Nat.mod_eq_of_lt hn]
  by_cases hwrap : i + n < 64
  · have hstay : ¬ i + n < n := by omega
    simp [Nat.mod_eq_of_lt hwrap, hwrap, hstay]
  · have hplace : (i + n) % 64 = i + n - 64 := by omega
    have hlow : i + n - 64 < n := by omega
    have hback : 64 - n + (i + n - 64) = i := by omega
    simp [hplace, hlow, hback]

/-- The low `64 - n` bits move up, and the `n` bits above them fill the places below. -/
theorem toNat_rotl64 (a : Word) {n : Nat} (hn : n < 64) :
    (rotl64 a n).toNat = a.toNat % 2 ^ (64 - n) * 2 ^ n + a.toNat / 2 ^ (64 - n) := by
  have hsplit : 2 ^ 64 = 2 ^ (64 - n) * 2 ^ n := by rw [← pow_add, Nat.sub_add_cancel hn.le]
  have hlow : a.toNat / 2 ^ (64 - n) < 2 ^ n := Nat.div_lt_of_lt_mul (hsplit ▸ a.isLt)
  rw [rotl64_eq_rotateLeft a hn, BitVec.toNat_rotateLeft, Nat.mod_eq_of_lt hn, Nat.shiftRight_eq_div_pow,
    Nat.shiftLeft_eq, hsplit, Nat.mul_mod_mul_right, ← Nat.shiftLeft_eq, ← Nat.shiftLeft_add_eq_or_of_lt hlow]

/-- Settles O26: the bit law of the rotation, and its value at 32. -/
theorem rotationMovesEachBit : Obligations.RotationMovesEachBit :=
  fun a => ⟨fun _ _ _ hn hi => getLsbD_rotl64 a hn hi, toNat_rotl64 a (by decide)⟩

/-! ## Each operation is undone (R138) -/

/-- Two rotations whose amounts sum to 64 bring every bit back to its place. -/
theorem rotl64_rotl64_cancel (a : Word) {m n : Nat} (hm : m < 64) (hn : n < 64) (hmn : m + n = 64) :
    rotl64 (rotl64 a m) n = a := by
  refine BitVec.eq_of_getLsbD_eq fun i hi => ?_
  have hround : ((i + m) % 64 + n) % 64 = i := by omega
  calc (rotl64 (rotl64 a m) n).getLsbD i
      = (rotl64 (rotl64 a m) n).getLsbD (((i + m) % 64 + n) % 64) := by rw [hround]
    _ = (rotl64 a m).getLsbD ((i + m) % 64) := getLsbD_rotl64 _ hn (Nat.mod_lt _ (by decide))
    _ = a.getLsbD i := getLsbD_rotl64 a hm hi

@[simp] theorem xor64_xor64_cancel (a b : Word) : xor64 (xor64 a b) b = a := by
  rw [xor64, xor64, BitVec.xor_assoc, BitVec.xor_self, BitVec.xor_zero]

@[simp] theorem add64_sub_cancel (a b : Word) : add64 a b - b = a := add_sub_cancel_right a b

@[simp] theorem add64_sub_add_cancel (a b : Word) : add64 (a - b) b = a := sub_add_cancel a b

/-! ## The inverse of each half-round -/

/-- `HALF_A` undone from its last line to its first: subtraction for `ADD64`, rotation by `64 - n` for `ROTL64`. -/
def halfAInv (o : Lanes) : Lanes :=
  let a0 := rotl64 o.v0 (64 - Config.rotA0)
  let r1 := xor64 o.v1 a0
  let r3 := xor64 o.v3 o.v2
  let v1 := rotl64 r1 (64 - Config.rotA1)
  let v3 := rotl64 r3 (64 - Config.rotA3)
  { v0 := a0 - v1, v1 := v1, v2 := o.v2 - v3, v3 := v3 }

/-- `HALF_B` undone from its last line to its first. -/
def halfBInv (o : Lanes) : Lanes :=
  let a2 := rotl64 o.v2 (64 - Config.rotB2)
  let r1 := xor64 o.v1 a2
  let r3 := xor64 o.v3 o.v0
  let v1 := rotl64 r1 (64 - Config.rotB1)
  let v3 := rotl64 r3 (64 - Config.rotB3)
  { v0 := o.v0 - v3, v1 := v1, v2 := a2 - v1, v3 := v3 }

theorem halfAInv_halfA (v : Lanes) : halfAInv (halfA v) = v := by
  simp (disch := decide) only [halfA, halfAInv, rotl64_rotl64_cancel, xor64_xor64_cancel, add64_sub_cancel]

theorem halfA_halfAInv (o : Lanes) : halfA (halfAInv o) = o := by
  simp (disch := decide) only [halfA, halfAInv, rotl64_rotl64_cancel, xor64_xor64_cancel, add64_sub_add_cancel]

theorem halfBInv_halfB (v : Lanes) : halfBInv (halfB v) = v := by
  simp (disch := decide) only [halfB, halfBInv, rotl64_rotl64_cancel, xor64_xor64_cancel, add64_sub_cancel]

theorem halfB_halfBInv (o : Lanes) : halfB (halfBInv o) = o := by
  simp (disch := decide) only [halfB, halfBInv, rotl64_rotl64_cancel, xor64_xor64_cancel, add64_sub_add_cancel]

/-! ## The round -/

/-- Settles O27: both run the same fourteen operations on the same words. -/
theorem roundIsTheFlatList : Obligations.RoundIsTheFlatList := fun _ => rfl

theorem halfA_bijective : Function.Bijective halfA :=
  Function.bijective_iff_has_inverse.2 ⟨halfAInv, halfAInv_halfA, halfA_halfAInv⟩

theorem halfB_bijective : Function.Bijective halfB :=
  Function.bijective_iff_has_inverse.2 ⟨halfBInv, halfBInv_halfB, halfB_halfBInv⟩

theorem sipRound_bijective : Function.Bijective sipRound := halfB_bijective.comp halfA_bijective

/-- `SIPROUND^n` is the `n`-th iterate of `SIPROUND` (R139). -/
theorem sipRounds_eq_iterate (n : Nat) : sipRounds n = sipRound^[n] := by
  induction n with
  | zero => rfl
  | succ n ih => exact funext fun v => congrFun ih (sipRound v)

/-- Settles O28: each half-round has an inverse, and bijections compose and iterate. -/
theorem roundsAreBijective : Obligations.RoundsAreBijective :=
  ⟨sipRound_bijective, fun n => sipRounds_eq_iterate n ▸ sipRound_bijective.iterate n⟩

end Sys2Proof.Machine

/-! Compression of full message words (43_compress.md): `COMPRESS` on words (R151), and the uop `CMPR` (R152). -/

namespace Sys2Proof.Machine

/-- `COMPRESS` applies two rounds between its two XORs of the same word (R151). -/
theorem compress_eq (v : Lanes) (b : Word) :
    compress v b =
      let r := sipRound (sipRound ⟨v.v0, v.v1, v.v2, v.v3 ^^^ b⟩)
      ⟨r.v0 ^^^ b, r.v1, r.v2, r.v3⟩ := rfl

/-- Settles O18: a word below `msg_len div 8` lies inside the message, so `CMPR` answers `COMPRESS` of its sum. -/
theorem cmprAbsorbsFullWord : Obligations.CmprAbsorbsFullWord := by
  intro s l v w hl hv hw hlt
  have hin : 8 * w + 8 ≤ l.msgLen := by omega
  refine execCmpr_eq_next.2 ⟨l, w, v, hl, hw, hv, hin, ?_⟩
  rw [Buffer.le64_readBytes, compress_eq]
  rfl

end Sys2Proof.Machine

/-! The tail-byte packer and the tail word (44_tail.md): the fields of `PACK` (R161), its little-endian form (R162), and
the uop `TAIL` (R163). -/

namespace Sys2Proof.Machine

/-! ## The number a byte sequence spells (R13) -/

/-- It is the library's number of the bytes as digits of base 256. -/
theorem leNat_eq_ofDigits (bs : List Byte) : leNat bs = Nat.ofDigits 256 (bs.map BitVec.toNat) := by
  induction bs with
  | nil => rfl
  | cons b bs ih => simp [leNat, ih, Nat.ofDigits_cons]

theorem leNat_append (s t : List Byte) : leNat (s ++ t) = leNat s + 256 ^ s.length * leNat t := by
  simp [leNat_eq_ofDigits, Nat.ofDigits_append]

@[simp] theorem leNat_replicate_zero (n : Nat) : leNat (List.replicate n 0) = 0 := by
  simp [leNat_eq_ofDigits, Nat.ofDigits_replicate_zero]

theorem leNat_lt (bs : List Byte) : leNat bs < 256 ^ bs.length := by
  have hdigit : ∀ d ∈ bs.map BitVec.toNat, d < 256 := by
    intro d hd
    obtain ⟨b, -, rfl⟩ := List.mem_map.1 hd
    exact b.isLt
  simpa [leNat_eq_ofDigits] using Nat.ofDigits_lt_base_pow_length (by decide) hdigit

/-- Byte `j` stands at bits `8j+7:8j`. -/
theorem leNat_byte {bs : List Byte} {b : Byte} :
    ∀ {j : Nat}, bs[j]? = some b → leNat bs / 2 ^ (8 * j) % 2 ^ 8 = b.toNat := by
  induction bs with
  | nil => nofun
  | cons c bs ih =>
    have hc : c.toNat < 256 := c.isLt
    intro j h
    cases j with
    | zero =>
      obtain rfl : c = b := by simpa using h
      simp only [leNat]
      omega
    | succ j =>
      have hrest : leNat (c :: bs) / 256 = leNat bs := by
        simp only [leNat]
        omega
      rw [Nat.mul_succ, Nat.add_comm, pow_add, ← Nat.div_div_eq_div_mul]
      exact hrest ▸ ih h

/-! ## The packer -/

/-- Where the low part stays below bit `i`, adding the high part is OR with it moved to bit `i`. -/
theorem ofNat_add_two_pow_mul {w i m : Nat} (hm : m < 2 ^ i) (n : Nat) :
    BitVec.ofNat w (m + 2 ^ i * n) = BitVec.ofNat w n <<< i ||| BitVec.ofNat w m := by
  have hshift : BitVec.ofNat w (n <<< i) = BitVec.ofNat w n <<< i := BitVec.eq_of_toNat_eq <| by
    simp [Nat.shiftLeft_eq]
  rw [Nat.add_comm, Nat.mul_comm, ← Nat.shiftLeft_eq, Nat.shiftLeft_add_eq_or_of_lt hm, BitVec.ofNat_or, hshift]

theorem le64_cons (b : Byte) (bs : List Byte) : le64 (b :: bs) = b.setWidth 64 ||| le64 bs <<< 8 := by
  rw [BitVec.or_comm, ← BitVec.ofNat_toNat]
  exact ofNat_add_two_pow_mul (i := 8) b.isLt (leNat bs)

/-- The bytes from index `j` on are their little-endian word, moved up `j` bytes. -/
theorem packBytes_eq (s : List Byte) : ∀ j, packBytes j s = le64 s <<< (8 * j) := by
  induction s with
  | nil => exact fun j => by simp [packBytes, le64, leNat]
  | cons b bs ih =>
    intro j
    rw [packBytes, ih, le64_cons, BitVec.shiftLeft_or_distrib, ← BitVec.shiftLeft_add, Nat.mul_succ, Nat.add_comm 8]

theorem leNat_lt_two_pow_56 {s : List Byte} (hs : s.length ≤ 7) : leNat s < 2 ^ 56 :=
  (leNat_lt s).trans_le (Nat.pow_le_pow_right (n := 256) (by decide) hs)

/-- At most seven leftover bytes stay below the length byte, so the fields do not overlap (R161). -/
theorem pack_eq_ofNat {s : List Byte} (hs : s.length ≤ 7) (L : Nat) :
    pack s L = BitVec.ofNat 64 (leNat s + 2 ^ 56 * (L % 256)) := by
  rw [ofNat_add_two_pow_mul (leNat_lt_two_pow_56 hs), pack, packBytes_eq, BitVec.shiftLeft_zero]
  rfl

/-- The leftover bytes, zero bytes up to seven, and the length byte (R162). -/
def tailBytes (s : List Byte) (L : Nat) : List Byte :=
  s ++ List.replicate (7 - s.length) 0 ++ [BitVec.ofNat 8 (L % 256)]

theorem leNat_tailBytes {s : List Byte} (hs : s.length ≤ 7) (L : Nat) :
    leNat (tailBytes s L) = leNat s + 2 ^ 56 * (L % 256) := by
  have hlen : s.length + (7 - s.length) = 7 := by omega
  rw [tailBytes, leNat_append, leNat_append, leNat_replicate_zero, List.length_append, List.length_replicate, hlen]
  simp [leNat]

theorem pack_eq_le64_tailBytes {s : List Byte} (hs : s.length ≤ 7) (L : Nat) : pack s L = le64 (tailBytes s L) := by
  rw [pack_eq_ofNat hs, le64, leNat_tailBytes hs]

theorem toNat_pack {s : List Byte} (hs : s.length ≤ 7) (L : Nat) :
    (pack s L).toNat = leNat s + 2 ^ 56 * (L % 256) := by
  have hlow := leNat_lt_two_pow_56 hs
  rw [pack_eq_ofNat hs, BitVec.toNat_ofNat, Nat.mod_eq_of_lt (by omega)]

/-- Each byte of the little-endian form stands in its place in the word. -/
theorem pack_byte {s : List Byte} {L j : Nat} {b : Byte} (hs : s.length ≤ 7) (h : (tailBytes s L)[j]? = some b) :
    (pack s L).toNat / 2 ^ (8 * j) % 2 ^ 8 = b.toNat := by
  rw [toNat_pack hs, ← leNat_tailBytes hs]
  exact leNat_byte h

theorem tailBytes_getElem?_leftover {s : List Byte} {L j : Nat} {b : Byte} (h : s[j]? = some b) :
    (tailBytes s L)[j]? = some b := by
  rw [tailBytes, List.append_assoc]
  exact (List.getElem?_append_left (List.getElem?_eq_some_iff.1 h).1).trans h

theorem tailBytes_getElem?_zero {s : List Byte} {L j : Nat} (hj : s.length ≤ j) (hj7 : j < 7) :
    (tailBytes s L)[j]? = some 0 := by
  have hzero : j - s.length < 7 - s.length := by omega
  rw [tailBytes, List.append_assoc, List.getElem?_append_right hj, List.getElem?_append_left (by simpa using hzero)]
  simp [hzero]

/-- Settles O30: the length byte lies above the number of the leftover bytes, and each byte below it is a byte of the
little-endian form. -/
theorem packPlacesItsFields : Obligations.PackPlacesItsFields := by
  intro s L hlen
  have hs : s.length ≤ 7 := by omega
  refine ⟨?_, fun j b hb => pack_byte hs (tailBytes_getElem?_leftover hb),
    fun j hj hj7 => pack_byte hs (tailBytes_getElem?_zero hj hj7)⟩
  have hlow := leNat_lt_two_pow_56 hs
  rw [toNat_pack hs]
  omega

/-- Settles O31: there are at most seven leftover bytes, so the word spells its little-endian form. -/
theorem packIsLittleEndianWord : Obligations.PackIsLittleEndianWord :=
  fun s L hlen => pack_eq_le64_tailBytes (by omega) L

/-! ## The uop `TAIL` -/

/-- The leftover bytes of a message and its length pack to the message's tail number (R160, R161). -/
theorem Buffer.pack_readBytes (b : Buffer) (L : Nat) :
    pack (b.cells.readBytes (8 * (L / 8)) (L % 8)) L = BitVec.ofNat 64 (b.tailNat L) := by
  have hlen : (b.cells.readBytes (8 * (L / 8)) (L % 8)).length ≤ 7 := by
    rw [Memory.readBytes_length]
    omega
  rw [pack_eq_ofNat hlen, Memory.leNat_readBytes, Nat.add_comm, Nat.mul_comm]
  rfl

/-- Settles O19: `TAIL` answers `COMPRESS` of the packed word, which is the message's tail number. -/
theorem tailAbsorbsTailWord : Obligations.TailAbsorbsTailWord := by
  intro s l v w hl hv hw
  refine execTail_eq_next.2 ⟨l, w, v, hl, hw, hv, ?_⟩
  rw [Latched.nwords, Latched.left, Buffer.pack_readBytes, compress_eq]
  rfl

end Sys2Proof.Machine

/-! Finalization and tag output (45_finalize_output.md): the four rounds of `FIN` (R171), and the eight bytes `OUT` writes
to `TAG` or to `TAGREG` (R174, R175). -/

namespace Sys2Proof.Machine

/-! ## The uop `FIN` -/

/-- Finalization XORs its constant into `v2` once, before four rounds (R171). -/
theorem finalizeLanes_eq (v : Lanes) :
    finalizeLanes v = sipRound (sipRound (sipRound (sipRound ⟨v.v0, v.v1, v.v2 ^^^ 0x00000000000000ff, v.v3⟩))) := rfl

/-- Settles O20: `FIN` answers the finalized words, which are four rounds on the words with 0xff in `v2`. -/
theorem finAppliesFourRounds : Obligations.FinAppliesFourRounds := by
  intro s v hv
  refine execFin_eq_next.2 ⟨v, hv, ?_⟩
  rw [finalizeLanes_eq]
  rfl

/-! ## The bytes of the tag -/

/-- `ENC` lists the bytes of a word, the lowest first (R174). -/
theorem enc_toList (t : Word) : (enc t).toList = (List.range 8).map (byteOf t) := rfl

theorem enc_toList_getElem? (t : Word) {j : Nat} (hj : j < 8) : (enc t).toList[j]? = some (byteOf t j) := by
  rw [enc_toList, List.getElem?_map, List.getElem?_range hj, Option.map_some]

/-- A tag written from address 0 up is read back byte by byte. -/
theorem Buffer.read_writeBytes_enc {b : Buffer} (hb : b.wf = true) (t : Word) {j : Nat} (hj : j < 8) :
    (b.writeBytes 0 (enc t).toList).read j = byteOf t j := by
  have hread : (enc t).toList[j]? = some ((b.writeBytes 0 (enc t).toList).read (0 + j)) :=
    Buffer.read_writeBytes_inside hb 0 _ hj
  rw [enc_toList_getElem? t hj, Nat.zero_add] at hread
  exact (Option.some.inj hread).symm

/-! ## The uop `OUT` -/

/-- Settles O21: a COMPUTE_TAG writes the encoded word over `TAG[0..7]` and ends; a VERIFY_TAG keeps it in `TAGREG`. -/
theorem outWritesTheTag : Obligations.OutWritesTheTag := by
  intro s l v hl hv x
  constructor
  · intro hop htag hwf
    have hout := execOut_eq_next.2 ⟨l, v, hl, hv, .inl ⟨hop, htag, rfl⟩⟩
    exact ⟨s.tag.writeBytes 0 (enc x).toList, hout, Buffer.writeBytes_size ..,
      fun j hj => Buffer.read_writeBytes_enc hwf x hj, fun a ha => Buffer.read_writeBytes_above hwf 0 _ ha⟩
  · intro hop
    have hout := execOut_eq_next.2 ⟨l, v, hl, hv, .inr ⟨hop, rfl⟩⟩
    exact ⟨enc x, hout, fun j hj => enc_toList_getElem? x hj⟩

end Sys2Proof.Machine

/-! Tag verification (46_verify.md): the verdict `CMP` writes (R186), and the end of the command in `ZER` (R188). -/

namespace Sys2Proof.Machine

/-! ## The uop `CMP` -/

/-- A byte sequence is the one read from a memory exactly when it agrees with it byte by byte. -/
theorem Memory.readBytes_eq_iff (m : Memory) {n a : Nat} {bs : List Byte} (hlen : bs.length = n) :
    m.readBytes a n = bs ↔ ∀ j < n, bs[j]? = some (m.read (a + j)) := by
  constructor
  · rintro rfl j hj
    exact m.readBytes_getElem? n a j hj
  · intro hbytes
    refine List.ext_getElem? fun j => ?_
    by_cases hj : j < n
    · rw [m.readBytes_getElem? n a j hj, hbytes j hj]
    · have hn : n ≤ j := Nat.le_of_not_lt hj
      rw [List.getElem?_eq_none (hlen.trans_le hn), List.getElem?_eq_none ((m.readBytes_length n a).trans_le hn)]

/-- `CMP` compares all eight bytes of `TAG` and `TAGREG` (R186). -/
theorem tag_readBytes_eq_tagreg_iff (s : State) :
    s.tag.cells.readBytes 0 8 = s.tagreg.toList ↔ ∀ j < 8, s.tagreg.toList[j]? = some (s.tag.read j) := by
  simpa only [Nat.zero_add, Buffer.read] using s.tag.cells.readBytes_eq_iff (a := 0) (Bytes8.length_toList s.tagreg)

/-- Settles O22: the verdict `CMP` answers is its test of the length and of the eight bytes. -/
theorem cmpWritesTheVerdict : Obligations.CmpWritesTheVerdict := by
  intro s l hl
  refine ⟨_, ?_, execCmp_eq_next.2 ⟨l, hl, rfl⟩⟩
  rw [decide_eq_true_iff, tag_readBytes_eq_tagreg_iff]

/-! ## The uop `ZER` -/

/-- A zeroed `TAGREG` reads zero through the test hook. -/
theorem dbgTagreg_of_zero {s : State} (h : s.tagreg = Bytes8.zero) : dbgTagreg s = 0 := by
  rw [dbgTagreg, h]
  rfl

/-- Settles O23: `ZER` ends the command with `TAGREG` zeroed, and ending a command keeps `TAGREG`. -/
theorem zerZeroesAndEnds : Obligations.ZerZeroesAndEnds :=
  fun _ => ⟨_, execZer_eq_next.2 rfl, rfl, dbgTagreg_of_zero rfl⟩

end Sys2Proof.Machine

/-! What the host observes after an error (60_exceptions.md R205). -/

namespace Sys2Proof.Machine

/-- STATUS and ERRINFO name the error taken (R205). -/
theorem readStatus_readErrinfo_raise (e : Err) (s : State) :
    (readStatus (raise e s) = 0x06 ∧ readErrinfo (raise e s) = 0x0110) ∨
      (readStatus (raise e s) = 0x0a ∧ readErrinfo (raise e s) = 0x0208) := by
  simp only [readStatus, readErrinfo, raise_status, raise_errinfo]
  cases e with
  | invalidKeyLength => exact .inl ⟨rfl, rfl⟩
  | invalidTagBufferLength => exact .inr ⟨rfl, rfl⟩

/-- `CHK` ends the command only by taking an error: a descriptor that passes goes on to `INIT` (R107). -/
theorem exec_chk_ends {s t : State} (h : exec .chk s = .next t) (hend : t.phase = phaseIdle) :
    ∃ e, t = raise e s := by
  obtain ⟨_, _, ⟨_, rfl⟩ | ⟨e, _, rfl⟩⟩ := execChk_eq_next.1 h
  · exact absurd hend (by decide : phaseInit ≠ phaseIdle)
  · exact ⟨e, rfl⟩

/-- Settles O15: `CHK` ends the command by taking an error, which writes no buffer and leaves `TAGREG` as it was before
`CHK`, where the invariant has it zero. -/
theorem hostSeesTheError : Obligations.HostSeesTheError := by
  rintro s t ⟨-, -, -, hzero, -⟩ hchk h hend
  obtain ⟨e, rfl⟩ := exec_chk_ends h hend
  have htagreg : s.tagreg = Bytes8.zero := hzero (by rw [hchk]; decide) (by rw [hchk]; decide)
  exact ⟨readStatus_readErrinfo_raise e s, raise_key e s, raise_msg e s, raise_tag e s,
    (raise_tagreg e s).trans htagreg⟩

end Sys2Proof.Machine

/-! The two directions of the encoding (30_encoding.md R81, R82, R84), and the words the spec writes out. -/

namespace Sys2Proof

/-- Unpacking undoes packing where the lengths fit their fields (R81). -/
theorem Descriptor.unpack_pack {lenW k t m : Nat} (o : BitVec 8) (hk : k < 2 ^ lenW) (ht : t < 2 ^ lenW)
    (hm : m < 2 ^ lenW) : Descriptor.unpack lenW (Descriptor.pack lenW ⟨o, k, t, m⟩) = ⟨o, k, t, m⟩ := by
  obtain ⟨hopcode, hkey, htag, hmsg, -⟩ := descriptorFieldPlaces lenW o k t m hk ht hm
  rw [Descriptor.unpack, hopcode, hkey, htag, hmsg, BitVec.ofNat_toNat, BitVec.setWidth_eq]

/-- Packing undoes unpacking where the word is no wider than a descriptor (R80, R81). -/
theorem Descriptor.pack_unpack {lenW w : Nat} (hw : w < 2 ^ descriptorBits lenW) :
    Descriptor.pack lenW (Descriptor.unpack lenW w) = w := by
  have hopcode : (BitVec.ofNat 8 (w % 2 ^ 8)).toNat = w % 2 ^ 8 := by simp
  have htag : w / 2 ^ (8 + lenW) = w / 2 ^ 8 / 2 ^ lenW := by rw [Nat.pow_add, Nat.div_div_eq_div_mul]
  have hmsg : w / 2 ^ (8 + 2 * lenW) = w / 2 ^ 8 / 2 ^ lenW / 2 ^ lenW := by
    rw [Nat.two_mul, ← Nat.add_assoc, Nat.pow_add, ← Nat.div_div_eq_div_mul, htag]
  have htop : w / 2 ^ 8 / 2 ^ lenW / 2 ^ lenW < 2 ^ lenW := by
    rw [← hmsg]
    refine Nat.div_lt_of_lt_mul ?_
    rwa [← Nat.pow_add, show 8 + 2 * lenW + lenW = descriptorBits lenW by unfold descriptorBits; omega]
  rw [Descriptor.unpack, Descriptor.pack_eq_nested, hopcode, htag, hmsg, Nat.mod_eq_of_lt htop, Nat.div_add_mod,
    Nat.div_add_mod, Nat.div_add_mod]

/-- A packed command decodes as its descriptor does. -/
theorem decode_pack {lenW k t m : Nat} (o : BitVec 8)
    (h : (lenFits lenW k && lenFits lenW t && lenFits lenW m) = true) :
    decode lenW (.command (Descriptor.pack lenW ⟨o, k, t, m⟩)) = decodeDescriptor ⟨o, k, t, m⟩ := by
  simp only [lenFits, Bool.and_eq_true, decide_eq_true_eq] at h
  obtain ⟨⟨hk, ht⟩, hm⟩ := h
  rw [decode, if_pos (Laws.EncodedWidth.pack_lt o hk ht hm), Descriptor.unpack_pack o hk ht hm]

/-- Settles O3: the decoder unpacks the lengths a command was packed from, and maps each uop's code back to the uop. -/
theorem decodeOfEncodeGivesInstruction : Obligations.DecodeOfEncodeGivesInstruction := by
  intro lenW i hwf
  cases i with
  | computeTag k t m => exact decode_pack 0x00 hwf
  | verifyTag k t m => exact decode_pack 0x01 hwf
  | idle | chk | init | cmpr | tail | fin | out | cmp | zer => rfl

/-- A command a descriptor spells is encoded as that descriptor packed, and is well formed where its lengths fit. -/
theorem encode_of_decodeDescriptor {d : Descriptor} {i : Instr} (h : decodeDescriptor d = .ok i) (lenW : Nat) :
    encode lenW i = .command (d.pack lenW) ∧
      i.wf lenW = (lenFits lenW d.keyLen && lenFits lenW d.tagLen && lenFits lenW d.msgLen) := by
  obtain ⟨o, k, t, m⟩ := d
  unfold decodeDescriptor at h
  split at h
  next ho =>
    cases h
    obtain rfl : o = 0 := BitVec.eq_of_toNat_eq ho
    exact ⟨rfl, rfl⟩
  next ho =>
    cases h
    obtain rfl : o = 1 := BitVec.eq_of_toNat_eq ho
    exact ⟨rfl, rfl⟩
  next => cases h

/-- A uop has no operand, so it is well formed for every width (R82). -/
theorem wf_of_decodeUop {c : BitVec 4} {i : Instr} (h : decodeUop c = .ok i) (lenW : Nat) : i.wf lenW = true := by
  unfold decodeUop at h
  split at h <;> cases h <;> rfl

/-- Settles O4: a word that decodes is no wider than a descriptor, so it is its own fields packed, and each field holds
no more than a length that fits. -/
theorem encodeOfDecodeGivesWord : Obligations.EncodeOfDecodeGivesWord := by
  intro lenW e i h
  cases e with
  | uop c => exact ⟨Machine.encode_of_decodeUop h lenW, wf_of_decodeUop h lenW⟩
  | command w =>
    simp only [decode] at h
    split at h
    next hw =>
      obtain ⟨hencode, hwf⟩ := encode_of_decodeDescriptor h lenW
      rw [hencode, hwf, Descriptor.pack_unpack hw]
      have hfits (x : Nat) : lenFits lenW (x % 2 ^ lenW) = true :=
        decide_eq_true (Nat.mod_lt x (Nat.two_pow_pos lenW))
      exact ⟨rfl, by simp only [Descriptor.unpack, hfits, Bool.and_self]⟩
    next => cases h

/-- Settles O6: each number is read in the format its count of bits selects, and that decoder reads the instruction. -/
theorem wordsOfTheSpecDecode : Obligations.WordsOfTheSpecDecode := by
  refine ⟨?_, ?_, rfl, rfl⟩
  · decide
  · decide

end Sys2Proof

/-! The invariant of the engine: every step keeps it, and from it the engine steps (40_commands.md R113). -/

namespace Sys2Proof.Machine

/-! ## The invariant in `IDLE` -/

/-- In `IDLE`, with no value left of a command, the invariant asks no more than canonical buffers and coherent STATUS and
ERRINFO. -/
theorem EngineInv.of_idle {t : State} (hcanon : BuffersCanonical t) (hphase : t.phase = phaseIdle)
    (hbusy : t.status.busy = false) (hv : t.v = none) (hw : t.widx = none) (htagreg : t.tagreg = Bytes8.zero)
    (hstatus : StatusCoherent t) : EngineInv t := by
  have hnotBusy : ¬ t.status.busy = true := Bool.eq_false_iff.1 hbusy
  refine ⟨hcanon, ⟨?legal, iff_of_false hnotBusy (not_not.2 hphase)⟩, hstatus, fun _ _ => htagreg, ?lanes, ?widx,
    ?counts, fun hb => absurd hb hnotBusy, fun _ _ hb => absurd hb hnotBusy⟩
  case legal => rw [hphase]; decide
  case lanes => rw [LanesHeld, hv, hphase]; decide
  case widx => rw [WidxHeld, hw, hphase]; decide
  case counts => rw [WidxCounts, hw]; nofun

/-- While the engine is not busy it is in `IDLE`, and no value is left of a command (R22, R27, R33). -/
theorem EngineInv.at_rest {s : State} (hs : EngineInv s) (hb : s.status.busy = false) :
    s.phase = phaseIdle ∧ s.v = none ∧ s.widx = none ∧ s.tagreg = Bytes8.zero := by
  obtain ⟨-, ⟨-, hbusy⟩, -, htagreg, hlanes, hwidx, -, -⟩ := hs
  have hidle : s.phase = phaseIdle := by
    by_contra hne
    exact Bool.false_ne_true (hb.symm.trans (hbusy.2 hne))
  rw [LanesHeld, hidle] at hlanes
  rw [WidxHeld, hidle] at hwidx
  refine ⟨hidle, ?_, ?_, htagreg (by rw [hidle]; decide) (by rw [hidle]; decide)⟩
  · exact Option.not_isSome_iff_eq_none.1 (mt hlanes.1 (by decide))
  · exact Option.not_isSome_iff_eq_none.1 (mt hwidx.1 (by decide))

/-! ## The invariant while a command runs -/

/-- What holds before every uop of a command that runs the latched descriptor `l`. -/
structure Running (l : Latched) (s : State) : Prop where
  canonical : BuffersCanonical s
  latched : s.latched = some l
  lengths : launchLengths l s = true
  busy : s.status.busy = true
  notDone : s.status.done = false
  noErr : s.status.err = 0
  noErrinfo : s.errinfo = 0x0000

/-- What holds before the uop with code `c` of a command that runs the latched descriptor `l`. -/
structure RunningAt (c : BitVec 4) (l : Latched) (s : State) : Prop extends Running l s where
  phase : s.phase = c
  lanes : s.v.isSome = true ↔ LanesExpected c
  widx : s.widx.isSome = true ↔ LanesExpected c ∨ c = phaseCmp ∨ c = phaseZer
  counts : ∀ w ∈ s.widx, if c = phaseCmpr then w < l.nwords else w = l.nwords
  tagreg : c ≠ phaseCmp → c ≠ phaseZer → s.tagreg = Bytes8.zero
  result : s.status.result = true → c = phaseZer
  checked : c ≠ phaseChk → keyBad l = false ∧ tagBad l = false
  verifies : c = phaseCmp ∨ c = phaseZer → l.op = .verifyTag

/-- Outside `IDLE` the invariant says that a command runs. -/
theorem EngineInv.runningAt {s : State} {c : BitVec 4} (hs : EngineInv s) (hp : s.phase = c) (hc : c ≠ phaseIdle) :
    ∃ l, RunningAt c l s := by
  subst hp
  obtain ⟨hcanon, ⟨-, hbusy⟩, ⟨-, hinfo, hrun, -, hresult⟩, htagreg, hlanes, hwidx, hcounts, hlatched, hdesc⟩ := hs
  have hb := hbusy.2 hc
  obtain ⟨hdone, herr⟩ := hrun hb
  obtain ⟨l, hl⟩ := Option.isSome_iff_exists.1 (hlatched hb)
  obtain ⟨hlengths, hchecked, hverifies⟩ := hdesc l hl hb
  have hzer (hr : s.status.result = true) : s.phase = phaseZer :=
    (hresult hr).1.resolve_right fun hd => Bool.false_ne_true (hdone.symm.trans hd)
  have hrunning : Running l s := ⟨hcanon, hl, hlengths, hb, hdone, herr, hinfo.trans (by rw [herr]; rfl)⟩
  exact ⟨l, hrunning, rfl, hlanes, hwidx, hcounts l hl, htagreg, hzer, hchecked, hverifies⟩

/-- A command that runs meets the invariant. -/
theorem RunningAt.engineInv {s : State} {c : BitVec 4} {l : Latched} (h : RunningAt c l s)
    (hc : c ≠ phaseIdle ∧ c.toNat ≤ 8) : EngineInv s := by
  obtain ⟨⟨hcanon, hl, hlengths, hb, hdone, herr, hinfo⟩, rfl, hlanes, hwidx, hcounts, htagreg, hresult, hchecked,
    hverifies⟩ := h
  have honly {l' : Latched} (hl' : l' ∈ s.latched) : l' = l := Option.some.inj (hl'.symm.trans hl)
  refine ⟨hcanon, ⟨hc.2, iff_of_true hb hc.1⟩, ?status, htagreg, hlanes, hwidx, fun l' hl' => honly hl' ▸ hcounts,
    fun _ => hl ▸ rfl, fun l' hl' _ => honly hl' ▸ ⟨hlengths, hchecked, hverifies⟩⟩
  refine ⟨by rw [herr]; decide, by rw [hinfo, herr]; rfl, fun _ => ⟨hdone, herr⟩, fun hne => absurd herr hne,
    fun hr => ⟨.inl (hresult hr), ?_⟩⟩
  rw [hl, Option.map_some, hverifies (.inr (hresult hr))]

/-! ## The end of a command -/

/-- A command that completes with `TAGREG` zero, and a verdict only of a VERIFY_TAG, leaves the invariant (R109). -/
theorem Running.engineInv_endCommand {s : State} {l : Latched} (h : Running l s) (htagreg : s.tagreg = Bytes8.zero)
    (hresult : s.status.result = true → l.op = .verifyTag) : EngineInv (endCommand s) := by
  obtain ⟨hcanon, hl, -, -, -, herr, hinfo⟩ := h
  refine .of_idle hcanon rfl rfl rfl rfl htagreg ⟨?_, ?_, nofun, fun hne => absurd herr hne, fun hr => ⟨.inr rfl, ?_⟩⟩
  · simp [herr]
  · simp [hinfo, herr, errinfoOf]
  · simp [hl, hresult hr]

theorem errinfoOf_code (e : Err) : errinfoOf e.code = e.info := by
  cases e with
  | invalidKeyLength => rfl
  | invalidTagBufferLength => rfl

/-- An error with `TAGREG` zero leaves the invariant (R204). -/
theorem Running.engineInv_raise {s : State} {l : Latched} (h : Running l s) (htagreg : s.tagreg = Bytes8.zero)
    (e : Err) : EngineInv (raise e s) := by
  have hcode : e.code ≠ 3 := by obtain he | he := e.code_eq <;> rw [he] <;> decide
  exact .of_idle h.canonical rfl rfl rfl rfl htagreg ⟨hcode, (errinfoOf_code e).symm, nofun, fun _ => ⟨rfl, rfl⟩, nofun⟩

/-! ## Each uop completes and keeps the invariant -/

/-- Past `CHK` a command has the key length it needs, and a COMPUTE_TAG the tag length (R107). -/
theorem RunningAt.right_lengths {s : State} {c : BitVec 4} {l : Latched} (h : RunningAt c l s) (hc : c ≠ phaseChk) :
    l.keyLen = 16 ∧ (l.op = .computeTag → l.tagLen = 8) :=
  chkError_eq_none_iff_lengths.1 (chkError_eq_none (p := Config.errPriority).2 (h.checked hc))

/-- The uops of the computation: from a uop past `CHK` and before `CMP`, one that leaves values in the state words and
`widx`, and `STATUS` and `TAGREG` as they were, goes on to another uop that reads them. -/
theorem RunningAt.engineInv_of_lanes {s t : State} {c c' : BitVec 4} {l : Latched} {v : Lanes} {w : Nat}
    (h : RunningAt c l s) (hc : c ≠ phaseChk ∧ c ≠ phaseCmp ∧ c ≠ phaseZer) (hrun : Running l t)
    (hkept : t.status = s.status ∧ t.tagreg = s.tagreg) (hp : t.phase = c') (hc' : LanesExpected c')
    (hv : t.v = some v) (hw : t.widx = some w) (hcount : if c' = phaseCmpr then w < l.nwords else w = l.nwords) :
    EngineInv t := by
  obtain ⟨hchk, hcmp, hzer⟩ := hc
  obtain ⟨hstatus, htagreg⟩ := hkept
  have hnotVerifying : ¬ (c' = phaseCmp ∨ c' = phaseZer) := by obtain rfl | rfl | rfl | rfl := hc' <;> decide
  have hlegal : c' ≠ phaseIdle ∧ c'.toNat ≤ 8 := by obtain rfl | rfl | rfl | rfl := hc' <;> decide
  refine RunningAt.engineInv (l := l) ⟨hrun, hp, ?lanes, ?widx, ?counts, fun _ _ => htagreg.trans (h.tagreg hcmp hzer),
    fun hr => absurd (h.result (hstatus ▸ hr)) hzer, fun _ => h.checked hchk, fun hver => absurd hver hnotVerifying⟩ hlegal
  case lanes => exact iff_of_true (hv ▸ rfl) hc'
  case widx => exact iff_of_true (hw ▸ rfl) (.inl hc')
  case counts =>
    intro w' hw'
    obtain rfl : w' = w := Option.some.inj (hw'.symm.trans hw)
    exact hcount

/-- The uop after `n` full words are absorbed is the one that `widx` counts for (R27, R104). -/
theorem counts_after_absorb {n N : Nat} (hn : n ≤ N) :
    if (if n < N then phaseCmpr else phaseTail) = phaseCmpr then n < N else n = N := by
  by_cases hlt : n < N
  · rwa [if_pos hlt, if_pos rfl]
  · rw [if_neg hlt, if_neg (by decide)]
    exact Nat.le_antisymm hn (Nat.le_of_not_lt hlt)

section
variable {s : State} {l : Latched}

theorem RunningAt.exec_chk (h : RunningAt phaseChk l s) : ∃ t, exec .chk s = .next t ∧ EngineInv t := by
  cases he : chkError Config.errPriority l with
  | none =>
    refine ⟨_, exec_chk_passes h.latched he, RunningAt.engineInv (c := phaseInit) (l := l) ?_ (by decide)⟩
    exact { h with
      phase := rfl
      tagreg := fun _ _ => h.tagreg (by decide) (by decide)
      lanes := h.lanes.trans (by decide)
      widx := h.widx.trans (by decide)
      counts := h.counts
      result := fun hr => absurd (h.result hr) (by decide)
      checked := fun _ => chkError_eq_none.1 he
      verifies := fun hver => absurd hver (by decide) }
  | some e => exact ⟨_, exec_chk_raises h.latched he, h.engineInv_raise (h.tagreg (by decide) (by decide)) e⟩

/-- Past `CHK` and before `CMP`, state words in which `n` full words of the message are absorbed, with `widx` the
count, keep the invariant. -/
theorem RunningAt.engineInv_absorbed {c : BitVec 4} (h : RunningAt c l s)
    (hc : c ≠ phaseChk ∧ c ≠ phaseCmp ∧ c ≠ phaseZer) (v : Lanes) {n : Nat} (hn : n ≤ l.nwords) :
    EngineInv (((s.setLanes (some v)).setWidx (some n)).setPhase (if n < l.nwords then phaseCmpr else phaseTail)) := by
  refine h.engineInv_of_lanes hc { h.toRunning with } ⟨rfl, rfl⟩ rfl ?_ rfl rfl (counts_after_absorb hn)
  split
  · exact .inl rfl
  · exact .inr (.inl rfl)

/-- A uop that reads the state words finds them and `widx` (R22, R27). -/
theorem RunningAt.operands {c : BitVec 4} (h : RunningAt c l s) (hc : LanesExpected c) :
    ∃ v w, s.v = some v ∧ s.widx = some w ∧ if c = phaseCmpr then w < l.nwords else w = l.nwords := by
  obtain ⟨v, hv⟩ := Option.isSome_iff_exists.1 (h.lanes.2 hc)
  obtain ⟨w, hw⟩ := Option.isSome_iff_exists.1 (h.widx.2 (.inl hc))
  exact ⟨v, w, hv, hw, h.counts w hw⟩

theorem RunningAt.exec_init (h : RunningAt phaseInit l s) : ∃ t, exec .init s = .next t ∧ EngineInv t := by
  obtain ⟨hk, -⟩ := h.right_lengths (by decide)
  exact ⟨_, execInit_eq_next.2 ⟨l, h.latched, hk.ge, rfl⟩, h.engineInv_absorbed (by decide) _ (Nat.zero_le _)⟩

theorem RunningAt.exec_cmpr (h : RunningAt phaseCmpr l s) : ∃ t, exec .cmpr s = .next t ∧ EngineInv t := by
  obtain ⟨v, w, hv, hw, hcount⟩ := h.operands (by decide)
  have hlt : w < l.nwords := hcount
  have hin : 8 * w + 8 ≤ l.msgLen := by
    unfold Latched.nwords at hlt
    omega
  exact ⟨_, execCmpr_eq_next.2 ⟨l, w, v, h.latched, hw, hv, hin, rfl⟩, h.engineInv_absorbed (by decide) _ hlt⟩

theorem RunningAt.exec_tail (h : RunningAt phaseTail l s) : ∃ t, exec .tail s = .next t ∧ EngineInv t := by
  obtain ⟨v, w, hv, hw, hcount⟩ := h.operands (by decide)
  exact ⟨_, execTail_eq_next.2 ⟨l, w, v, h.latched, hw, hv, rfl⟩,
    h.engineInv_of_lanes (by decide) { h.toRunning with } ⟨rfl, rfl⟩ rfl (by decide : LanesExpected phaseFin) rfl hw
      hcount⟩

theorem RunningAt.exec_fin (h : RunningAt phaseFin l s) : ∃ t, exec .fin s = .next t ∧ EngineInv t := by
  obtain ⟨v, w, hv, hw, hcount⟩ := h.operands (by decide)
  exact ⟨_, execFin_eq_next.2 ⟨v, hv, rfl⟩,
    h.engineInv_of_lanes (by decide) { h.toRunning with } ⟨rfl, rfl⟩ rfl (by decide : LanesExpected phaseOut) rfl hw
      hcount⟩

/-- Writing inside `TAG` leaves the command running. -/
theorem Running.setTag (h : Running l s) {a : Nat} {bs : List Byte} (hin : a + bs.length ≤ s.tag.size) :
    Running l (s.setTag (s.tag.writeBytes a bs)) := by
  obtain ⟨hkey, hmsg, htag⟩ := h.canonical
  exact { h with canonical := ⟨hkey, hmsg, Buffer.wf_writeBytes htag hin⟩ }

theorem RunningAt.exec_out (h : RunningAt phaseOut l s) : ∃ t, exec .out s = .next t ∧ EngineInv t := by
  obtain ⟨v, w, hv, hw, hcount⟩ := h.operands (by decide)
  have hnoResult : ¬ s.status.result = true := mt h.result (by decide)
  cases ho : l.op with
  | computeTag =>
    obtain ⟨-, htag⟩ := h.right_lengths (by decide)
    obtain ⟨-, hin, -⟩ := launchLengths_eq.1 h.lengths
    refine ⟨_, execOut_eq_next.2 ⟨l, v, h.latched, hv, .inl ⟨ho, htag ho, rfl⟩⟩, ?_⟩
    exact (h.toRunning.setTag ((htag ho).ge.trans hin)).engineInv_endCommand (h.tagreg (by decide) (by decide))
      fun hr => absurd hr hnoResult
  | verifyTag =>
    refine ⟨_, execOut_eq_next.2 ⟨l, v, h.latched, hv, .inr ⟨ho, rfl⟩⟩,
      RunningAt.engineInv (c := phaseCmp) (l := l) ?_ (by decide)⟩
    exact { h with
      phase := rfl
      lanes := iff_of_false nofun (by decide)
      widx := h.widx.trans (by decide)
      counts := h.counts
      tagreg := fun hne _ => absurd rfl hne
      result := fun hr => absurd hr hnoResult
      checked := fun _ => h.checked (by decide)
      verifies := fun _ => ho }

theorem RunningAt.exec_cmp (h : RunningAt phaseCmp l s) : ∃ t, exec .cmp s = .next t ∧ EngineInv t := by
  refine ⟨_, execCmp_eq_next.2 ⟨l, h.latched, rfl⟩, RunningAt.engineInv (c := phaseZer) (l := l) ?_ (by decide)⟩
  exact { h with
    phase := rfl
    lanes := h.lanes.trans (by decide)
    widx := h.widx.trans (by decide)
    counts := h.counts
    tagreg := fun _ hne => absurd rfl hne
    result := fun _ => rfl
    checked := fun _ => h.checked (by decide)
    verifies := fun _ => h.verifies (by decide) }

theorem RunningAt.exec_zer (h : RunningAt phaseZer l s) : ∃ t, exec .zer s = .next t ∧ EngineInv t := by
  have hrun : Running l (s.setTagreg Bytes8.zero) := { h.toRunning with }
  exact ⟨_, execZer_eq_next.2 rfl, hrun.engineInv_endCommand rfl fun _ => h.verifies (by decide)⟩

end

/-- From every state of the invariant the uop of `phase` completes, and keeps the invariant. -/
theorem EngineInv.exec_uop {s : State} {i : Instr} (hs : EngineInv s) (hi : decodeUop s.phase = .ok i) :
    ∃ t, exec i s = .next t ∧ EngineInv t := by
  have hp {c : BitVec 4} (hc : encode 0 i = .uop c) : s.phase = c := code_of_decodeUop hi hc
  have hrun {c : BitVec 4} (hc : encode 0 i = .uop c) (hne : c ≠ phaseIdle) : ∃ l, RunningAt c l s :=
    hs.runningAt (hp hc) hne
  cases i with
  | computeTag => cases encode_of_decodeUop hi 0
  | verifyTag => cases encode_of_decodeUop hi 0
  | idle => exact ⟨s, (idleChangesNothing s (hp rfl)).1, hs⟩
  | chk => obtain ⟨l, h⟩ := hrun rfl (by decide); exact h.exec_chk
  | init => obtain ⟨l, h⟩ := hrun rfl (by decide); exact h.exec_init
  | cmpr => obtain ⟨l, h⟩ := hrun rfl (by decide); exact h.exec_cmpr
  | tail => obtain ⟨l, h⟩ := hrun rfl (by decide); exact h.exec_tail
  | fin => obtain ⟨l, h⟩ := hrun rfl (by decide); exact h.exec_fin
  | out => obtain ⟨l, h⟩ := hrun rfl (by decide); exact h.exec_out
  | cmp => obtain ⟨l, h⟩ := hrun rfl (by decide); exact h.exec_cmp
  | zer => obtain ⟨l, h⟩ := hrun rfl (by decide); exact h.exec_zer

/-! ## `START`, the host's moves and reset keep the invariant -/

/-- `START` begins a command whose lengths lie in the buffers (R101). -/
theorem EngineInv.started {s : State} (hs : EngineInv s) (hb : s.status.busy = false) {l : Latched}
    (hlengths : launchLengths l s = true) : EngineInv (started l s) := by
  obtain ⟨-, hv, hw, htagreg⟩ := hs.at_rest hb
  obtain ⟨hcanon, -⟩ := hs
  refine RunningAt.engineInv (c := phaseChk) (l := l) ?_ (by decide)
  exact {
    canonical := hcanon
    latched := rfl
    lengths := hlengths
    busy := rfl
    notDone := rfl
    noErr := rfl
    noErrinfo := rfl
    phase := rfl
    lanes := iff_of_false (by simp [Machine.started, hv]) (by decide)
    widx := iff_of_false (by simp [Machine.started, hw]) (by decide)
    counts := fun w hw' => nomatch hw.symm.trans hw'
    tagreg := fun _ _ => htagreg
    result := nofun
    checked := fun hne => absurd rfl hne
    verifies := fun hver => absurd hver (by decide) }

/-- While no command runs a buffer in canonical form can take the place of another (R234). -/
theorem EngineInv.setBuffer {s : State} (hs : EngineInv s) (hb : s.status.busy = false) (sp : Space) {b : Buffer}
    (hwf : (s.buffer sp).wf = true → b.wf = true) : EngineInv (s.setBuffer sp b) := by
  obtain ⟨hphase, hv, hw, htagreg⟩ := hs.at_rest hb
  obtain ⟨⟨hkey, hmsg, htag⟩, -, hstatus, -⟩ := hs
  cases sp with
  | key => exact .of_idle ⟨hwf hkey, hmsg, htag⟩ hphase hb hv hw htagreg hstatus
  | msg => exact .of_idle ⟨hkey, hwf hmsg, htag⟩ hphase hb hv hw htagreg hstatus
  | tag => exact .of_idle ⟨hkey, hmsg, hwf htag⟩ hphase hb hv hw htagreg hstatus

/-- A reset leaves the engine at rest, whatever it abandons (R231). -/
theorem engineInv_resetEvent {s : State} (hcanon : BuffersCanonical s) : EngineInv (resetEvent s) := by
  obtain ⟨hkey, hmsg, htag⟩ := hcanon
  exact .of_idle ⟨hkey, hmsg, tagAfterReset_wf htag⟩ rfl rfl rfl rfl rfl (by decide : StatusCoherent State.reset)

theorem EngineInv.stepKeeps : StepKeeps EngineInv where
  pending _ hs := hs
  buffer sp _ hs hb hwf := hs.setBuffer hb sp hwf
  reset hs := engineInv_resetEvent hs.1
  start _ hs hb hlengths := hs.started hb hlengths
  uop hs hi h := by
    obtain ⟨t, ht, hinv⟩ := hs.exec_uop hi
    cases ht.symm.trans h
    exact hinv

/-- Settles O44: each uop goes from what holds before it to what holds before its successor, `START` begins and reset
ends in such a state, and the host's moves come only while no command runs. -/
theorem stepKeepsInvariant : Obligations.StepKeepsInvariant :=
  fun _ _ hs h => EngineInv.stepKeeps.step hs h

/-- Settles O43: reset leaves the engine at rest with no buffer provided. -/
theorem resetMeetsInvariant : Obligations.ResetMeetsInvariant :=
  .of_idle reset_buffers_wf rfl rfl rfl rfl rfl (by decide)

/-! ## From every state of the invariant the engine steps -/

/-- One of the nine codes of `phase` spells a uop (R25, R86). -/
theorem decodeUop_of_le {c : BitVec 4} (h : c.toNat ≤ 8) : ∃ i, decodeUop c = .ok i := by
  interval_cases hcode : c.toNat
  all_goals
    simp only [decodeUop, hcode]
    exact ⟨_, rfl⟩

theorem EngineInv.operandsHeld {s : State} (hs : EngineInv s) : OperandsHeld s := by
  obtain ⟨-, ⟨hlegal, hbusy⟩, -, -, hlanes, hwidx, -, hlatched, -⟩ := hs
  exact ⟨hlegal, fun hne => Option.isSome_iff_exists.1 (hlatched (hbusy.2 hne)),
    fun hexp => Option.isSome_iff_exists.1 (hlanes.2 hexp), fun hexp => Option.isSome_iff_exists.1 (hwidx.2 (.inl hexp))⟩

/-- Settles O45: the uop of `phase` completes, and every uop finds its operands, so no step faults. -/
theorem engineNeverStops : Obligations.EngineNeverStops := by
  intro s hs
  refine ⟨fun hpend => ?_, hs.operandsHeld.step_faultless⟩
  obtain ⟨i, hi⟩ := decodeUop_of_le hs.operandsHeld.legal
  obtain ⟨t, ht, -⟩ := hs.exec_uop hi
  exact ⟨t, (step_uop hpend hi).trans ht⟩

end Sys2Proof.Machine

/-! What a command shows does not depend on what earlier commands left in the engine (40_commands.md R115). -/

namespace Sys2Proof.Machine

/-! ## The count of drawn free bytes is not read by a command -/

/-- The state with another count of drawn free bytes. -/
def State.setFreeCount (s : State) (n : Nat) : State := { s with freeCount := n }

/-- No instruction reads or writes the count of drawn free bytes. -/
theorem exec_setFreeCount {i : Instr} {s t : State} (n : Nat) (h : exec i s = .next t) :
    exec i (s.setFreeCount n) = .next (t.setFreeCount n) := by
  cases i with
  | computeTag =>
    obtain ⟨hb, hlen, rfl⟩ := execComputeTag_eq_next.1 h
    exact execComputeTag_eq_next.2 ⟨hb, hlen, rfl⟩
  | verifyTag =>
    obtain ⟨hb, hlen, rfl⟩ := execVerifyTag_eq_next.1 h
    exact execVerifyTag_eq_next.2 ⟨hb, hlen, rfl⟩
  | idle =>
    obtain rfl := execIdle_eq_next.1 h
    exact execIdle_eq_next.2 rfl
  | chk =>
    obtain ⟨l, hl, ⟨he, rfl⟩ | ⟨e, he, rfl⟩⟩ := execChk_eq_next.1 h
    · exact execChk_eq_next.2 ⟨l, hl, .inl ⟨he, rfl⟩⟩
    · exact execChk_eq_next.2 ⟨l, hl, .inr ⟨e, he, rfl⟩⟩
  | init =>
    obtain ⟨l, hl, hk, rfl⟩ := execInit_eq_next.1 h
    exact execInit_eq_next.2 ⟨l, hl, hk, rfl⟩
  | cmpr =>
    obtain ⟨l, w, v, hl, hw, hv, hin, rfl⟩ := execCmpr_eq_next.1 h
    exact execCmpr_eq_next.2 ⟨l, w, v, hl, hw, hv, hin, rfl⟩
  | tail =>
    obtain ⟨l, w, v, hl, hw, hv, rfl⟩ := execTail_eq_next.1 h
    exact execTail_eq_next.2 ⟨l, w, v, hl, hw, hv, rfl⟩
  | fin =>
    obtain ⟨v, hv, rfl⟩ := execFin_eq_next.1 h
    exact execFin_eq_next.2 ⟨v, hv, rfl⟩
  | out =>
    obtain ⟨l, v, hl, hv, ⟨ho, ht, rfl⟩ | ⟨ho, rfl⟩⟩ := execOut_eq_next.1 h
    · exact execOut_eq_next.2 ⟨l, v, hl, hv, .inl ⟨ho, ht, rfl⟩⟩
    · exact execOut_eq_next.2 ⟨l, v, hl, hv, .inr ⟨ho, rfl⟩⟩
  | cmp =>
    obtain ⟨l, hl, rfl⟩ := execCmp_eq_next.1 h
    exact execCmp_eq_next.2 ⟨l, hl, rfl⟩
  | zer =>
    obtain rfl := execZer_eq_next.1 h
    exact execZer_eq_next.2 rfl

/-- With no host move to come, a step that answers a next state is a uop of `phase`. -/
theorem step_uop_eq_next {s t : State} (hpend : s.pending = []) (h : step s = .next t) :
    ∃ i, decodeUop s.phase = .ok i ∧ exec i s = .next t := by
  rw [step, fetch_uop hpend] at h
  exact dispatchDecoded_next h

/-- With no host move to come, a run does not depend on the count of drawn free bytes. -/
theorem run_setFreeCount (n : Nat) {k : Nat} {s t : State} (hpend : s.pending = [])
    (h : Host.Core.run Sys2Proof.core k s = .next t) :
    Host.Core.run Sys2Proof.core k (s.setFreeCount n) = .next (t.setFreeCount n) := by
  induction k generalizing s with
  | zero =>
    cases h
    rfl
  | succ k ih =>
    obtain ⟨u, hstep, hrun⟩ := run_succ_eq_next h
    obtain ⟨i, hi, hexec⟩ := step_uop_eq_next hpend hstep
    have hstep' : step (s.setFreeCount n) = .next (u.setFreeCount n) :=
      (step_uop (s := s.setFreeCount n) hpend hi).trans (exec_setFreeCount n hexec)
    exact run_cons hstep' (ih ((exec_pending hexec).trans hpend) hrun)

/-! ## `START` leaves nothing of earlier commands -/

/-- A written descriptor that answers a next state is the `START` of a command. -/
theorem step_writeDesc_eq_next {s t : State} {d : Descriptor} {rest : List HostMove}
    (hp : s.pending = .writeDesc d :: rest) (h : step s = .next t) :
    ∃ i, decodeDescriptor d = .ok i ∧ exec i (s.setPending rest) = .next t := by
  rw [step, fetch_writeDesc hp] at h
  exact dispatchDecoded_next h

/-- Two engines at rest with the same buffers start a command in the same state, but for the count of drawn free bytes. -/
theorem started_eq_setFreeCount {s s' : State} {l : Latched} (hrest : EngineInv s ∧ s.status.busy = false)
    (hrest' : EngineInv s' ∧ s'.status.busy = false) (hpend : s.pending = s'.pending) (hkey : s.key = s'.key)
    (hmsg : s.msg = s'.msg) (htag : s.tag = s'.tag) :
    started l s' = (started l s).setFreeCount s'.freeCount := by
  obtain ⟨-, hv, hw, htagreg⟩ := hrest.1.at_rest hrest.2
  obtain ⟨-, hv', hw', htagreg'⟩ := hrest'.1.at_rest hrest'.2
  simp only [started, State.setFreeCount, State.setLatched, State.setStatus, State.setErrinfo, State.setPhase, hv, hw,
    htagreg, hv', hw', htagreg', hpend, hkey, hmsg, htag]

/-- Settles O52: `START` is the only step that meets what earlier commands left; it makes the two states equal but for
the count of drawn free bytes, which no uop reads and the view does not show. -/
theorem earlierCommandsDoNotMatter : Obligations.EarlierCommandsDoNotMatter := by
  intro s s' t d k hs hs' hphase hphase' hp hp' hkey hmsg htag h
  obtain ⟨u, hstep, hrun⟩ := run_succ_eq_next h
  obtain ⟨i, hi, hexec⟩ := step_writeDesc_eq_next hp hstep
  obtain ⟨l, hl⟩ := exec_of_decodeDescriptor hi
  obtain ⟨hb, hlengths, rfl⟩ := start_eq_next.1 (hl _ ▸ hexec)
  have hb' : s'.status.busy = false := ((idleChangesNothing s' hphase').2 hs').1
  have hlengths' : launchLengths l (s'.setPending []) = true := by
    rw [launchLengths_eq] at hlengths ⊢
    simpa [hkey, hmsg, htag] using hlengths
  have heq : started l (s'.setPending []) = (started l (s.setPending [])).setFreeCount s'.freeCount :=
    started_eq_setFreeCount (s := s.setPending []) (s' := s'.setPending []) ⟨hs, hb⟩ ⟨hs', hb'⟩ rfl hkey hmsg htag
  have hstep' : step s' = .next (started l (s'.setPending [])) := by
    have hfetch : fetch s' = .run i (s'.setPending []) := by rw [fetch_writeDesc hp', hi, dispatchDecoded_ok]
    rw [step_of_fetch_run hfetch, hl]
    exact start_eq_next.2 ⟨hb', hlengths', rfl⟩
  refine ⟨t.setFreeCount s'.freeCount, run_cons hstep' ?_, rfl⟩
  rw [heq]
  exact run_setFreeCount s'.freeCount rfl hrun

end Sys2Proof.Machine

/-! Reset and the outside world (70_reset_and_hazards.md; 20_memory.md R62): the reset event, and the host's accesses to its
buffers. -/

namespace Sys2Proof.Machine

/-! ## The reset event (R231, R232, R233) -/

/-- Settles O39: each register of `State.reset` holds the value R40 gives it. -/
theorem resetLeavesRegisters : Obligations.ResetLeavesRegisters := ⟨rfl, rfl, rfl, rfl, rfl, rfl, rfl⟩

/-- A reset leaves every byte of `TAG` from address 8 up (R233). -/
theorem tagAfterReset_read_above {s : State} (hwf : s.tag.wf = true) {a : Nat} (ha : 8 ≤ a) :
    (tagAfterReset s).read a = s.tag.read a := by
  unfold tagAfterReset
  split
  · have htorn : tornBytes s ≤ 8 := Nat.min_le_left ..
    exact Buffer.read_writeBytes_above hwf 0 _ (by rw [freeBytes_length]; omega)
  · rfl

/-- Where no COMPUTE_TAG is in progress, a reset leaves `TAG` (R232, R233). -/
theorem tagAfterReset_of_not_computing {s : State}
    (h : ¬ (s.status.busy = true ∧ s.latched.map Latched.op = some .computeTag)) : tagAfterReset s = s.tag := by
  rw [tagAfterReset, if_neg]
  simpa only [computing, Bool.and_eq_true, decide_eq_true_eq] using h

/-- Settles O40: the step is the reset event, which draws free bytes only into `TAG[0..7]` of an abandoned COMPUTE_TAG. -/
theorem resetEventFromAnyState : Obligations.ResetEventFromAnyState := by
  intro s rest hp hwf
  have hstep : step s = .next (resetEvent (s.setPending rest)) := step_of_fetch_settled (by rw [fetch, hp])
  refine ⟨_, hstep, rfl, rfl, rfl, rfl, rfl, rfl, rfl, rfl, rfl, rfl, tagAfterReset_size _, fun a ha => ?above,
    fun hnot => ?unchanged⟩
  case above => exact tagAfterReset_read_above (s := s.setPending rest) hwf ha
  case unchanged => exact tagAfterReset_of_not_computing (s := s.setPending rest) hnot

/-! ## The host's accesses to its buffers (R62, R234, R240) -/

section
variable {s : State} {rest : List HostMove}

theorem step_provide {sp : Space} {bytes : List Byte} (hp : s.pending = .provide sp bytes :: rest) :
    step s = hostProvide sp bytes (s.setPending rest) :=
  step_of_fetch_settled (by rw [fetch, hp])

theorem step_writeByte {sp : Space} {a : Nat} {x : Byte} (hp : s.pending = .writeByte sp a x :: rest) :
    step s = hostWriteByte sp a x (s.setPending rest) :=
  step_of_fetch_settled (by rw [fetch, hp])

theorem step_readTag {a : Nat} (hp : s.pending = .readTag a :: rest) :
    step s = hostReadTag a (s.setPending rest) :=
  step_of_fetch_settled (by rw [fetch, hp])

end

/-- Settles O41: each access to a buffer asks first whether a command runs. -/
theorem hostAccessWhileBusyRefused : Obligations.HostAccessWhileBusyRefused := by
  intro s rest hb
  refine ⟨fun sp bytes hp => ?provide, fun sp a b hp => ?writeByte, fun a hp => ?readTag⟩
  case provide => rw [step_provide hp, hostProvide, State.setPending_status, if_pos hb]
  case writeByte => rw [step_writeByte hp, hostWriteByte, State.setPending_status, if_pos hb]
  case readTag =>
    rw [step_readTag hp, hostReadTag, hostTagByte, State.setPending_status, if_pos hb]
    rfl

@[simp] theorem State.setPending_buffer (s : State) (rest : List HostMove) (sp : Space) :
    (s.setPending rest).buffer sp = s.buffer sp := by
  cases sp <;> rfl

/-- Settles O42: a provided buffer lists its own bytes, and a byte written inside a buffer is read back alone. -/
theorem hostProvidesAndWritesBuffers : Obligations.HostProvidesAndWritesBuffers := by
  intro s rest sp hb
  refine ⟨fun bytes hp => ?provide, fun a x hp ha hwf => ?writeByte⟩
  case provide =>
    have hstep := (step_provide hp).trans (hostProvide_eq_next.2 ⟨hb, rfl⟩)
    refine ⟨_, hstep, rfl, Buffer.wf_ofBytes bytes, fun j x hx => ?_⟩
    rw [Buffer.read_ofBytes, List.getD_eq_getElem?_getD, hx, Option.getD_some]
  case writeByte =>
    have hstep := (step_writeByte hp).trans
      (hostWriteByte_eq_next.2 ⟨hb, (s.setPending_buffer rest sp).symm ▸ ha, rfl⟩)
    rw [State.setPending_buffer] at hstep
    refine ⟨_, hstep, Buffer.writeBytes_size .., Buffer.wf_writeBytes hwf ha, ?same, fun c hc => ?other⟩
    case same =>
      have hread := Buffer.read_writeBytes_inside hwf a [x] (j := 0) Nat.zero_lt_one
      exact (Option.some.inj hread).symm
    case other =>
      have hout : ¬ (a ≤ c ∧ c < a + [x].length) := by
        rw [List.length_singleton]
        omega
      rw [Buffer.read_writeBytes hwf, if_neg hout]

end Sys2Proof.Machine

/-! The step and `START` (10_state.md R25, R31; 40_commands.md R101, R114; 70_reset_and_hazards.md R239, R242), and taking an
error (60_exceptions.md R204). -/

namespace Sys2Proof.Machine

/-- Settles O7: the engine fetches the uop of `phase` with no host move before it, or when the host lets it run. -/
theorem stepRunsUopOfPhase : Obligations.StepRunsUopOfPhase := by
  intro s i hi
  refine ⟨fun hp => step_uop hp hi, fun rest hp => step_of_fetch_run ?_⟩
  rw [fetch_letRun hp, hi]
  rfl

/-- Settles O8: the engine fetches the command the descriptor spells. -/
theorem stepRunsWrittenDescriptor : Obligations.StepRunsWrittenDescriptor := by
  intro s d rest i hp hi
  refine step_of_fetch_run ?_
  rw [fetch_writeDesc hp, hi]
  rfl

/-- `START` while a command runs is refused by name (R114). -/
theorem start_busy {s : State} (hb : s.status.busy = true) (l : Latched) : start l s = .refused .startWhileBusy := by
  rw [start, if_pos hb]

/-- `START` with a length beyond its buffer is refused by name (R242). -/
theorem start_beyond {s : State} {l : Latched} (hb : s.status.busy = false)
    (h : s.key.size < l.keyLen ∨ s.tag.size < l.tagLen ∨ s.msg.size < l.msgLen) :
    start l s = .refused .lengthBeyondBuffer := by
  have hbeyond : ¬ launchLengths l s = true := by
    rw [launchLengths_eq]
    omega
  rw [start, if_neg (Bool.eq_false_iff.1 hb), if_neg hbeyond]

/-- Opcodes 0x00 and 0x01 spell a command (R84). -/
theorem decodeDescriptor_command {d : Descriptor} (h : d.opcode.toNat < 2) : ∃ i, decodeDescriptor d = .ok i := by
  interval_cases hopcode : d.opcode.toNat
  all_goals
    simp only [decodeDescriptor, hopcode]
    exact ⟨_, rfl⟩

/-- Settles O9: both commands are their `START`, which the lengths and `busy` allow. -/
theorem startLatchesDescriptor : Obligations.StartLatchesDescriptor := by
  intro s k t m hb hk ht hm
  exact ⟨execComputeTag_eq_next.2 ⟨hb, launchLengths_eq.2 ⟨hk, ht, hm⟩, rfl⟩,
    execVerifyTag_eq_next.2 ⟨hb, launchLengths_eq.2 ⟨hk, ht, hm⟩, rfl⟩⟩

/-- Settles O10: the descriptor spells a command, and its `START` asks first whether another one runs. -/
theorem startWhileBusyRefused : Obligations.StartWhileBusyRefused := by
  intro s d rest hb hd hp
  obtain ⟨i, hi⟩ := decodeDescriptor_command hd
  obtain ⟨l, hl⟩ := exec_of_decodeDescriptor hi
  rw [stepRunsWrittenDescriptor s d rest i hp hi, hl]
  exact start_busy (s := s.setPending rest) hb l

/-- Settles O11: the `START` of either command compares each length with its buffer. -/
theorem falseLengthsRefused : Obligations.FalseLengthsRefused :=
  fun _ _ _ _ hb h => ⟨start_beyond hb h, start_beyond hb h⟩

/-- Settles O14: `raise` writes the code of the error, the ERRINFO that R30 gives for it, and the end of the command. -/
theorem raiseEndsTheCommand : Obligations.RaiseEndsTheCommand := by
  intro e s
  rw [errinfoOf_code]
  rfl

end Sys2Proof.Machine

/-! What each instruction writes and leaves unchanged: the buffers (20_memory.md R55), the descriptor registers (10_state.md
R28) and STATUS (R29). -/

namespace Sys2Proof.Machine

/-! ## The buffers (R35, R36, R37, R55) -/

/-- No instruction writes `KEY`, `MSG` or `TAG`, but that `OUT` of a COMPUTE_TAG writes eight bytes from `TAG[0]` up. -/
theorem exec_buffers {i : Instr} {s t : State} (h : exec i s = .next t) :
    t.key = s.key ∧ t.msg = s.msg ∧
      (t.tag = s.tag ∨ (i = .out ∧ s.latched.map Latched.op = some .computeTag ∧
        ∃ e : Bytes8, t.tag = s.tag.writeBytes 0 e.toList)) := by
  cases i with
  | computeTag => obtain ⟨_, _, rfl⟩ := execComputeTag_eq_next.1 h; exact ⟨rfl, rfl, .inl rfl⟩
  | verifyTag => obtain ⟨_, _, rfl⟩ := execVerifyTag_eq_next.1 h; exact ⟨rfl, rfl, .inl rfl⟩
  | idle => obtain rfl := execIdle_eq_next.1 h; exact ⟨rfl, rfl, .inl rfl⟩
  | chk => obtain ⟨_, _, ⟨_, rfl⟩ | ⟨_, _, rfl⟩⟩ := execChk_eq_next.1 h <;> exact ⟨rfl, rfl, .inl rfl⟩
  | init => obtain ⟨_, _, _, rfl⟩ := execInit_eq_next.1 h; exact ⟨rfl, rfl, .inl rfl⟩
  | cmpr => obtain ⟨_, _, _, _, _, _, _, rfl⟩ := execCmpr_eq_next.1 h; exact ⟨rfl, rfl, .inl rfl⟩
  | tail => obtain ⟨_, _, _, _, _, _, rfl⟩ := execTail_eq_next.1 h; exact ⟨rfl, rfl, .inl rfl⟩
  | fin => obtain ⟨_, _, rfl⟩ := execFin_eq_next.1 h; exact ⟨rfl, rfl, .inl rfl⟩
  | out =>
    obtain ⟨l, _, hl, _, ⟨ho, _, rfl⟩ | ⟨_, rfl⟩⟩ := execOut_eq_next.1 h
    · exact ⟨rfl, rfl, .inr ⟨rfl, by rw [hl, Option.map_some, ho], _, rfl⟩⟩
    · exact ⟨rfl, rfl, .inl rfl⟩
  | cmp => obtain ⟨_, _, rfl⟩ := execCmp_eq_next.1 h; exact ⟨rfl, rfl, .inl rfl⟩
  | zer => obtain rfl := execZer_eq_next.1 h; exact ⟨rfl, rfl, .inl rfl⟩

/-- Settles O34: the one write an instruction can make ends at `TAG[7]`. -/
theorem engineWritesOnlyTheTag : Obligations.EngineWritesOnlyTheTag := by
  intro i s t h hwf
  obtain ⟨hkey, hmsg, htag | ⟨hout, ho, e, htag⟩⟩ := exec_buffers h
  · exact ⟨hkey, hmsg, congrArg Buffer.size htag, fun a _ => congrArg (Buffer.read · a) htag,
      fun hne => absurd htag hne⟩
  · refine ⟨hkey, hmsg, (congrArg Buffer.size htag).trans (Buffer.writeBytes_size ..), fun a ha => ?_, fun _ => ⟨hout, ho⟩⟩
    rw [htag]
    exact Buffer.read_writeBytes_above hwf 0 e.toList ha

/-! ## The descriptor registers (R28) -/

/-- Settles O35: `START` latches the descriptor, and no uop's next state has another one. -/
theorem descriptorRegistersHaveOneWriter : Obligations.DescriptorRegistersHaveOneWriter := by
  intro i s t h
  cases i with
  | computeTag => obtain ⟨_, _, rfl⟩ := execComputeTag_eq_next.1 h; rfl
  | verifyTag => obtain ⟨_, _, rfl⟩ := execVerifyTag_eq_next.1 h; rfl
  | idle => obtain rfl := execIdle_eq_next.1 h; rfl
  | chk => obtain ⟨_, _, ⟨_, rfl⟩ | ⟨_, _, rfl⟩⟩ := execChk_eq_next.1 h <;> rfl
  | init => obtain ⟨_, _, _, rfl⟩ := execInit_eq_next.1 h; rfl
  | cmpr => obtain ⟨_, _, _, _, _, _, _, rfl⟩ := execCmpr_eq_next.1 h; rfl
  | tail => obtain ⟨_, _, _, _, _, _, rfl⟩ := execTail_eq_next.1 h; rfl
  | fin => obtain ⟨_, _, rfl⟩ := execFin_eq_next.1 h; rfl
  | out => obtain ⟨_, _, _, _, ⟨_, _, rfl⟩ | ⟨_, rfl⟩⟩ := execOut_eq_next.1 h <;> rfl
  | cmp => obtain ⟨_, _, rfl⟩ := execCmp_eq_next.1 h; rfl
  | zer => obtain rfl := execZer_eq_next.1 h; rfl

/-! ## STATUS (R29) -/

/-- Settles O36: the next state of each instruction has the STATUS its rule writes; those of `CHK` and `OUT` depend on the
error found and on the command. -/
theorem statusHasItsWriters : Obligations.StatusHasItsWriters := by
  intro i s t h
  cases i with
  | computeTag => obtain ⟨_, _, rfl⟩ := execComputeTag_eq_next.1 h; rfl
  | verifyTag => obtain ⟨_, _, rfl⟩ := execVerifyTag_eq_next.1 h; rfl
  | idle => obtain rfl := execIdle_eq_next.1 h; rfl
  | chk =>
    obtain ⟨_, _, ⟨_, rfl⟩ | ⟨e, _, rfl⟩⟩ := execChk_eq_next.1 h
    · exact .inl rfl
    · exact .inr ⟨rfl, rfl, e.code_eq, rfl⟩
  | init => obtain ⟨_, _, _, rfl⟩ := execInit_eq_next.1 h; rfl
  | cmpr => obtain ⟨_, _, _, _, _, _, _, rfl⟩ := execCmpr_eq_next.1 h; rfl
  | tail => obtain ⟨_, _, _, _, _, _, rfl⟩ := execTail_eq_next.1 h; rfl
  | fin => obtain ⟨_, _, rfl⟩ := execFin_eq_next.1 h; rfl
  | out =>
    obtain ⟨l, _, hl, _, ⟨ho, _, rfl⟩ | ⟨ho, rfl⟩⟩ := execOut_eq_next.1 h
    · simp only [hl, Option.map_some, ho, if_true]
      rfl
    · simp only [hl, Option.map_some, ho, Option.some.injEq, reduceCtorEq, if_false]
      rfl
  | cmp => obtain ⟨_, _, rfl⟩ := execCmp_eq_next.1 h; exact ⟨_, rfl⟩
  | zer => obtain rfl := execZer_eq_next.1 h; rfl

/-- The byte of STATUS as a number: each field at the weight of its lowest bit. -/
theorem toNat_statusWord (st : Status) :
    (statusWord st).toNat = st.busy.toNat + 2 * st.done.toNat + 4 * st.err.toNat + 16 * st.result.toNat := by
  obtain ⟨b, d, e, r⟩ := st
  revert b d e r
  decide

/-- Settles O37: each field is its digit of the number the byte of STATUS spells. -/
theorem statusWordLayout : Obligations.StatusWordLayout := by
  intro s
  have hword : (readStatus s).toNat = _ := toNat_statusWord s.status
  have herr : s.status.err.toNat < 4 := s.status.err.isLt
  have hbusy := s.status.busy.toNat_lt
  have hdone := s.status.done.toNat_lt
  have hresult := s.status.result.toNat_lt
  have hbit (i : Nat) (b : Bool) (h : (readStatus s).toNat / 2 ^ i % 2 = b.toNat) : (readStatus s).getLsbD i = b := by
    rw [BitVec.getLsbD, Nat.testBit_eq_decide_div_mod_eq, h]
    cases b <;> rfl
  refine ⟨hbit 0 _ ?_, hbit 1 _ ?_, ?_, hbit 4 _ ?_, ?_⟩ <;> omega

end Sys2Proof.Machine

/-! Splitting a word into bytes and assembling bytes into a word (00_scope.md R13, 45_finalize_output.md R174). -/

namespace Sys2Proof.Machine

theorem toNat_byteOf (t : Word) (j : Nat) : (byteOf t j).toNat = t.toNat / 2 ^ (8 * j) % 2 ^ 8 := by
  rw [byteOf, BitVec.toNat_setWidth, BitVec.toNat_ushiftRight, Nat.shiftRight_eq_div_pow]

/-- The lowest `n` bytes of a word spell the word modulo `256^n`. -/
theorem leNat_map_byteOf (t : Word) (n : Nat) : leNat ((List.range n).map (byteOf t)) = t.toNat % 256 ^ n := by
  induction n with
  | zero => simp [leNat, Nat.mod_one]
  | succ n ih =>
    have hweight : 2 ^ (8 * n) = 256 ^ n := by rw [Nat.pow_mul]
    rw [List.range_succ, List.map_append, leNat_append, ih, List.length_map, List.length_range, Nat.pow_succ,
      Nat.mod_mul, ← hweight]
    simp [leNat, toNat_byteOf]

/-- Byte `j` of the word that at most eight bytes spell is the byte with index `j`. -/
theorem byteOf_le64 {bs : List Byte} (hlen : bs.length ≤ 8) {j : Nat} {b : Byte} (h : bs[j]? = some b) :
    byteOf (le64 bs) j = b := by
  have hlt : leNat bs < 2 ^ 64 := (leNat_lt bs).trans_le (Nat.pow_le_pow_right (n := 256) (by decide) hlen)
  refine BitVec.eq_of_toNat_eq ?_
  rw [toNat_byteOf, le64, BitVec.toNat_ofNat, Nat.mod_eq_of_lt hlt, leNat_byte h]

/-- Settles O29: the eight bytes of a word spell it modulo `256^8`, and each byte of the word that eight bytes spell is
the byte at its index. -/
theorem littleEndianRoundTrip : Obligations.LittleEndianRoundTrip := by
  refine ⟨fun t => ?assemble, fun e => ?split⟩
  case assemble =>
    refine BitVec.eq_of_toNat_eq ?_
    rw [enc_toList, le64, leNat_map_byteOf, BitVec.toNat_ofNat]
    have ht := t.isLt
    omega
  case split =>
    have hbyte {j : Nat} {b : Byte} (h : e.toList[j]? = some b) : byteOf (le64 e.toList) j = b :=
      byteOf_le64 (Bytes8.length_toList e).le h
    rw [enc, encLe64, hbyte rfl, hbyte rfl, hbyte rfl, hbyte rfl, hbyte rfl, hbyte rfl, hbyte rfl, hbyte rfl]

end Sys2Proof.Machine

/-! Where a uop runs without its operands it stops by name (00_scope.md R15; 20_memory.md R54, R55). -/

namespace Sys2Proof.Machine

/-! ## Going on after a read that succeeds, and stopping after one that does not -/

section
variable {α : Type} {r : Except Stop α} {k : α → Host.Outcome State Fault Refusal}

theorem andThen_of_ok {x : α} {o : Host.Outcome State Fault Refusal} (hr : r = .ok x) (hk : k x = o) :
    andThen r k = o := by
  rw [hr, andThen_ok, hk]

theorem andThen_of_error {e : Stop} (hr : r = .error e) : andThen r k = e.toOutcome := by
  rw [hr, andThen_error]

end

/-! ## The stops of each uop -/

section
variable {s : State} {l : Latched} {w : Nat} {v : Lanes}

/-- Every uop that reads the descriptor reads it first (log entry 17). -/
theorem exec_no_descriptor (hl : s.latched = none) :
    exec .chk s = .fault (.readUnspec .descriptor) ∧ exec .init s = .fault (.readUnspec .descriptor) ∧
    exec .cmpr s = .fault (.readUnspec .descriptor) ∧ exec .tail s = .fault (.readUnspec .descriptor) ∧
    exec .out s = .fault (.readUnspec .descriptor) ∧ exec .cmp s = .fault (.readUnspec .descriptor) := by
  have hread := readLatched_none hl
  exact ⟨andThen_of_error hread, andThen_of_error hread, andThen_of_error hread, andThen_of_error hread,
    andThen_of_error hread, andThen_of_error hread⟩

theorem exec_fin_no_lanes (hv : s.v = none) : exec .fin s = .fault (.readUnspec .lanes) :=
  andThen_of_error (readLanes_none hv)

/-- `INIT` reads sixteen bytes of the key: a shorter key ends inside the first word or inside the second. -/
theorem exec_init_short_key (hl : s.latched = some l) (hk : l.keyLen < 16) :
    exec .init s = .refused .readOutsideBuffer := by
  refine andThen_of_ok (readLatched_eq_ok.2 hl) ?_
  obtain hfirst | hfirst := Nat.lt_or_ge l.keyLen 8
  · exact andThen_of_error (memRead_outside hl hfirst)
  · exact andThen_of_ok (memRead_inside hl hfirst) (andThen_of_error (memRead_outside hl hk))

theorem exec_cmpr_no_widx (hl : s.latched = some l) (hw : s.widx = none) :
    exec .cmpr s = .fault (.readUnspec .widx) :=
  andThen_of_ok (readLatched_eq_ok.2 hl) (andThen_of_error (readWidx_none hw))

theorem exec_tail_no_widx (hl : s.latched = some l) (hw : s.widx = none) :
    exec .tail s = .fault (.readUnspec .widx) :=
  andThen_of_ok (readLatched_eq_ok.2 hl) (andThen_of_error (readWidx_none hw))

/-- The leftover bytes always lie in the message (R57), so what stops `TAIL` is the state words. -/
theorem exec_tail_no_lanes (hl : s.latched = some l) (hw : s.widx = some w) (hv : s.v = none) :
    exec .tail s = .fault (.readUnspec .lanes) := by
  have hin : 8 * l.nwords + l.left ≤ l.len .msg := (Nat.div_add_mod l.msgLen 8).le
  exact andThen_of_ok (readLatched_eq_ok.2 hl) (andThen_of_ok (readWidx_eq_ok.2 hw)
    (andThen_of_ok (memRead_inside hl hin) (andThen_of_error (readLanes_none hv))))

/-- `CMPR` with no full word left would read beyond the message (R54). -/
theorem exec_cmpr_beyond (hl : s.latched = some l) (hw : s.widx = some w) (hle : l.msgLen / 8 ≤ w) :
    exec .cmpr s = .refused .readOutsideBuffer := by
  have hout : l.len .msg < 8 * w + 8 := by
    rw [Latched.len]
    omega
  exact andThen_of_ok (readLatched_eq_ok.2 hl) (andThen_of_ok (readWidx_eq_ok.2 hw)
    (andThen_of_error (memRead_outside hl hout)))

theorem exec_cmpr_no_lanes (hl : s.latched = some l) (hw : s.widx = some w) (hlt : w < l.msgLen / 8)
    (hv : s.v = none) : exec .cmpr s = .fault (.readUnspec .lanes) := by
  have hin : 8 * w + 8 ≤ l.len .msg := by
    rw [Latched.len]
    omega
  exact andThen_of_ok (readLatched_eq_ok.2 hl) (andThen_of_ok (readWidx_eq_ok.2 hw)
    (andThen_of_ok (memRead_inside hl hin) (andThen_of_error (readLanes_none hv))))

theorem exec_out_no_lanes (hl : s.latched = some l) (hv : s.v = none) :
    exec .out s = .fault (.readUnspec .lanes) :=
  andThen_of_ok (readLatched_eq_ok.2 hl) (andThen_of_error (readLanes_none hv))

/-- `OUT` of a COMPUTE_TAG with another tag length than 8 would be a write that R55 does not define. -/
theorem exec_out_other_length (hl : s.latched = some l) (hv : s.v = some v) (ho : l.op = .computeTag)
    (ht : l.tagLen ≠ 8) : exec .out s = .refused .writeNotDefined := by
  refine andThen_of_ok (readLatched_eq_ok.2 hl) (andThen_of_ok (readLanes_eq_ok.2 hv) ?_)
  simp only [ho]
  exact andThen_of_error (memWrite_not_defined hl fun ⟨_, _, _, _, htag, _⟩ => ht htag)

end

/-- Settles O24: each uop stops at the first operand, in the order of its meaning, that it cannot read or write. -/
theorem uopsStopWithoutTheirOperands : Obligations.UopsStopWithoutTheirOperands :=
  ⟨fun _ => exec_no_descriptor, fun _ => exec_fin_no_lanes, fun _ _ => exec_out_no_lanes,
    fun _ _ => exec_init_short_key, fun _ _ hl hw => ⟨exec_cmpr_no_widx hl hw, exec_tail_no_widx hl hw⟩,
    fun _ _ _ => exec_tail_no_lanes, fun _ _ _ => exec_cmpr_beyond, fun _ _ _ => exec_cmpr_no_lanes,
    fun _ _ _ => exec_out_other_length⟩

end Sys2Proof.Machine
